-- ==== Sys2Proof/Word.lean ====
section
/-! DEFINITION. The bit widths of the block: pin levels, 32-bit registers and arguments, the 72-bit command word. -/

namespace Sys2Proof

/-- One pin level: 0 is low, 1 is high (10_state.md R21). -/
abbrev Level := BitVec 1

/-- A 32-bit register or command argument (00_scope.md R10). -/
abbrev Word := BitVec 32

/-- A command word, 72 bits, bit 0 least significant (30_encoding.md R80). -/
abbrev CommandWord := BitVec 72

/-- One byte of a serialised command word (20_memory.md R65); the block itself has no bytes. -/
abbrev Byte := BitVec 8

end Sys2Proof
end

