-- ==== Sys2Proof/Config.lean ====
section
/-! DEFINITION. What an implementation fixes: the profile constants the spec gives, the parameters it leaves open,
and the free values. A constant without a body can be unfolded by no proof: what is proved holds for every value. -/

namespace Sys2Proof

/-! ### The profile constants, 00_scope.md R8 -/

/-- `TRAP_TOTAL`: steps in one trapezoidal profile. -/
def Config.trapTotal : Nat := 3200
/-- `TRAP_ACCEL_END`: the first index after the acceleration zone. -/
def Config.trapAccelEnd : Nat := 200
/-- `TRAP_DECEL_START`: the first index of the deceleration zone. -/
def Config.trapDecelStart : Nat := 3000
/-- `TRAP_START_DELAY`: the delay of index 0, in time units. -/
def Config.trapStartDelay : Nat := 10
/-- `TRAP_FLOOR`: the cruise delay, in time units. -/
def Config.trapFloor : Nat := 1
/-- `TRAP_CADENCE`: steps between two changes of the delay. -/
def Config.trapCadence : Nat := 20

/-! ### The open parameters, 00_scope.md R9 -/

/-- `DIR_CW`: the level of the direction pin that means Clockwise (R9, R103, D19). -/
opaque Config.dirCw : Level
/-- `STEP_RESET`: the level of the step pin after reset (R9, R21, D22). -/
opaque Config.stepReset : Level
/-- `DIR_RESET`: the level of the direction pin after reset (R9, R22, D22). -/
opaque Config.dirReset : Level
/-- `OE_N_RESET`: the level of the output-enable line after reset (R9, R23, D22). -/
opaque Config.oeNReset : Level
/-- `TU`: the real duration of a time unit. No rule depends on it (R9, U15) and no definition reads it. -/
opaque Config.timeUnit : Nat
/-- `BASE_PERIOD`: the real duration of a base period. No rule depends on it (R9, U15) and no definition reads it. -/
opaque Config.basePeriod : Nat

/-! ### The free values: each is applied to a draw number, `State.draws` -/

/-- What the external bring-up that INIT stands for reports (40_port_and_gate.md R104). -/
inductive BringUp where
  | success
  | failure
deriving DecidableEq, Repr, Inhabited

/-- The draw of INIT: "draw r in {success, failure}" (40_port_and_gate.md R104, U13). -/
opaque Config.bringUp : Nat → BringUp

/-- What a read of a RateProgram register returns before the first STEP_TIMER since reset: a fresh draw at every
read, never one value per reset (20_memory.md R64, U11). -/
opaque Config.unwrittenRead : Nat → Word

/-- The contents a reset leaves in the twelve registers the spec calls unspecified (10_state.md R40, U11). The two
one-bit sequencer registers are given as bits here. -/
structure ResetContents where
  stepBudget : Word
  rateDivisor : Word
  stepsEmitted : Word
  divisorCounter : Word
  seqPhase : BitVec 1
  seqRemaining : BitVec 33
  seqDelay : Word
  waitCnt : Word
  trapIdx : BitVec 12
  trapDelay : Word
  trapPhase : BitVec 5
  trapHalf : BitVec 1
deriving DecidableEq, Repr, Inhabited

/-- The unspecified contents left by the reset with this draw number (10_state.md R40). -/
opaque Config.resetContents : Nat → ResetContents

end Sys2Proof
end

