-- ==== Sys2Proof/Syntax.lean ====
section
/-! DEFINITION. The instructions: one constructor per row of spec/opcode_table.json. -/

namespace Sys2Proof

/-- A command as decoded (30_encoding.md R80, R82). Every constructor keeps the `argc` field and both argument
fields, also the ones its command ignores (R83), so that no bit of the word is lost. The names of the arguments
are those of R81; an argument a command does not have is called `arg0` or `arg1`. -/
inductive Instr where
  /-- `INIT`, 40_port_and_gate.md R104. -/
  | init (argc : BitVec 2) (arg0 arg1 : Word)
  /-- `ENABLE state`, 40_port_and_gate.md R106. -/
  | enable (argc : BitVec 2) (state arg1 : Word)
  /-- `STEP step delay`, 41_immediate_stepper.md R120; `count` is the argument the spec calls `step`. -/
  | step (argc : BitVec 2) (count delay : Word)
  /-- `STEP_TIMER step_budget rate_divisor`, 42_periodic_rate_generator.md R142. -/
  | stepTimer (argc : BitVec 2) (budget divisor : Word)
  /-- `STEP_TRAPEZOID`, 43_trapezoidal_profiler.md R170. -/
  | stepTrapezoid (argc : BitVec 2) (arg0 arg1 : Word)
  /-- `TIMER_STOP`, 40_port_and_gate.md R107. -/
  | timerStop (argc : BitVec 2) (arg0 arg1 : Word)
deriving DecidableEq, Repr

/-- The `argc` field: how many arguments the caller supplied (30_encoding.md R80, R83). -/
def Instr.argc : Instr → BitVec 2
  | .init c _ _ => c
  | .enable c _ _ => c
  | .step c _ _ => c
  | .stepTimer c _ _ => c
  | .stepTrapezoid c _ _ => c
  | .timerStop c _ _ => c

/-- The first argument field, bits 63:32. -/
def Instr.arg0 : Instr → Word
  | .init _ a _ => a
  | .enable _ a _ => a
  | .step _ a _ => a
  | .stepTimer _ a _ => a
  | .stepTrapezoid _ a _ => a
  | .timerStop _ a _ => a

/-- The second argument field, bits 31:0. -/
def Instr.arg1 : Instr → Word
  | .init _ _ b => b
  | .enable _ _ b => b
  | .step _ _ b => b
  | .stepTimer _ _ b => b
  | .stepTrapezoid _ _ b => b
  | .timerStop _ _ b => b

end Sys2Proof
end

