-- ==== Sys2Proof/WellFormed.lean ====
section
/-! DEFINITION. Which terms of `Instr` are commands: those that some legal command word encodes. -/

namespace Sys2Proof

/-- A well-formed command. The one check: `argc` is 0, 1 or 2, since 3 is reserved (30_encoding.md R80, R86). Every
other field of a command may hold any value: arguments are not range-checked (R84), and a small `argc` is a
condition of the running command, not of its encoding (R86). -/
def Instr.wellFormed (i : Instr) : Bool := i.argc != 3#2

end Sys2Proof
end

