-- ==== Sys2Proof/Decode.lean ====
section
/-! DEFINITION. From command words to commands and back (30_encoding.md): fields, opcodes, the decoder, the encoder,
the byte strings of test files and the textual form. -/

namespace Sys2Proof

/-! ### The opcodes, 30_encoding.md R82 -/

/-- The six commands of R82, without their arguments. -/
inductive Opcode where
  | init
  | enable
  | step
  | stepTimer
  | stepTrapezoid
  | timerStop
deriving DecidableEq, Repr

/-- The 4-bit `op` of a command (R82). -/
def Opcode.code : Opcode → BitVec 4
  | .init => 0x1#4
  | .enable => 0x2#4
  | .step => 0x3#4
  | .stepTimer => 0x4#4
  | .stepTrapezoid => 0x5#4
  | .timerStop => 0x6#4

/-- The number of arguments a command requires (R82, last column). -/
def Opcode.argsRequired : Opcode → Nat
  | .init => 0
  | .enable => 1
  | .step => 2
  | .stepTimer => 2
  | .stepTrapezoid => 0
  | .timerStop => 0

/-- The command of an `op` field; the reserved opcodes 0 and 7 to 15 have none (R82). -/
def Opcode.ofCode (op : BitVec 4) : Option Opcode :=
  match op.toNat with
  | 1 => some .init
  | 2 => some .enable
  | 3 => some .step
  | 4 => some .stepTimer
  | 5 => some .stepTrapezoid
  | 6 => some .timerStop
  | _ => none

/-- The opcode of a command. -/
def Instr.opcode : Instr → Opcode
  | .init _ _ _ => .init
  | .enable _ _ _ => .enable
  | .step _ _ _ => .step
  | .stepTimer _ _ _ => .stepTimer
  | .stepTrapezoid _ _ _ => .stepTrapezoid
  | .timerStop _ _ _ => .timerStop

/-- A command from its opcode and its fields. -/
def Opcode.instr (o : Opcode) (argc : BitVec 2) (arg0 arg1 : Word) : Instr :=
  match o with
  | .init => .init argc arg0 arg1
  | .enable => .enable argc arg0 arg1
  | .step => .step argc arg0 arg1
  | .stepTimer => .stepTimer argc arg0 arg1
  | .stepTrapezoid => .stepTrapezoid argc arg0 arg1
  | .timerStop => .timerStop argc arg0 arg1

/-! ### The fields of a command word, 30_encoding.md R80 -/

/-- Bits 71:68. -/
def CommandWord.op (w : CommandWord) : BitVec 4 := w.extractLsb' 68 4
/-- Bits 67:66, reserved, must be 0. -/
def CommandWord.rsv (w : CommandWord) : BitVec 2 := w.extractLsb' 66 2
/-- Bits 65:64. -/
def CommandWord.argc (w : CommandWord) : BitVec 2 := w.extractLsb' 64 2
/-- Bits 63:32. -/
def CommandWord.arg0 (w : CommandWord) : Word := w.extractLsb' 32 32
/-- Bits 31:0. -/
def CommandWord.arg1 (w : CommandWord) : Word := w.extractLsb' 0 32

/-! ### The decoder, 30_encoding.md R86 -/

/-- Why a word is `Illegal` (R86, R87), in the order the decoder tests. -/
inductive DecodeError where
  /-- `rsv` is not 0. -/
  | reservedBits
  /-- `argc` is 3. -/
  | reservedArgc
  /-- `op` is 0 or 7 to 15. -/
  | reservedOpcode
deriving DecidableEq, Repr

/-- The decoder of R86, total on every 72-bit word. -/
def decode (w : CommandWord) : Except DecodeError Instr :=
  if CommandWord.rsv w ≠ 0#2 then .error .reservedBits
  else if CommandWord.argc w = 3#2 then .error .reservedArgc
  else match Opcode.ofCode (CommandWord.op w) with
    | none => .error .reservedOpcode
    | some o => .ok (o.instr (CommandWord.argc w) (CommandWord.arg0 w) (CommandWord.arg1 w))

/-- The command word of a command (R80): `op`, `rsv` = 0, `argc`, `arg0`, `arg1` from the top bit down. -/
def encode (i : Instr) : CommandWord :=
  i.opcode.code ++ 0#2 ++ i.argc ++ i.arg0 ++ i.arg1

/-! ### Byte strings, 20_memory.md R65 -/

/-- Byte number `k` of a word, byte 0 the least significant. -/
def CommandWord.byte (w : CommandWord) (k : Nat) : Byte := w.extractLsb' (8 * k) 8

/-- The nine bytes of a command word as a test file writes them: header byte, then `arg0`, then `arg1`, each most
significant byte first. -/
def CommandWord.toBytes (w : CommandWord) : List Byte :=
  [byte w 8, byte w 7, byte w 6, byte w 5, byte w 4, byte w 3, byte w 2, byte w 1, byte w 0]

/-- The command word at the head of a byte string and the bytes after it; none where fewer than nine bytes stand. -/
def CommandWord.ofBytes : List Byte → Option (CommandWord × List Byte)
  | b8 :: b7 :: b6 :: b5 :: b4 :: b3 :: b2 :: b1 :: b0 :: rest =>
    some (b8 ++ b7 ++ b6 ++ b5 ++ b4 ++ b3 ++ b2 ++ b1 ++ b0, rest)
  | _ => none

/-- Decoding a byte string: none where no whole word stands at its head. -/
def decodeBytes (bs : List Byte) : Option (Except DecodeError Instr × List Byte) :=
  match CommandWord.ofBytes bs with
  | none => none
  | some (w, rest) => some (decode w, rest)

/-! ### The textual form, 30_encoding.md R91, R92 -/

/-- The type of an argument (R84): the first argument of `step` and of `step-timer` is an `i32`, every other is a
`u32`. True when the integer is a value of that type. -/
def Opcode.argInRange (o : Opcode) (isFirst : Bool) (v : Int) : Bool :=
  if isFirst && (o == .step || o == .stepTimer) then decide (-2 ^ 31 ≤ v) && decide (v < 2 ^ 31)
  else decide (0 ≤ v) && decide (v < 2 ^ 32)

/-- The command word of a line: the command, then its arguments in order as integers. `argc` is the number of
arguments written and an unused field is 0 (R91). None for three or more arguments and for a value outside its
argument's type. -/
def assemble (o : Opcode) (args : List Int) : Option CommandWord :=
  match args with
  | [] => some (encode (o.instr 0#2 0#32 0#32))
  | [a] => if o.argInRange true a then some (encode (o.instr 1#2 (BitVec.ofInt 32 a) 0#32)) else none
  | [a, b] =>
    if o.argInRange true a && o.argInRange false b then
      some (encode (o.instr 2#2 (BitVec.ofInt 32 a) (BitVec.ofInt 32 b)))
    else none
  | _ => none

/-- The caller's request for `p` pulses at divisor `r`: `step-timer 2*p r`, since the budget counts toggles; none
where `2*p` does not fit an `i32` (R92). -/
def assemblePulses (p : Int) (r : Nat) : Option CommandWord :=
  assemble .stepTimer [2 * p, (r : Int)]

/-! ### The host's view of the opcode table -/

/-- The word whose bits the table numbers as `w`: bit 0 least significant, every bit from `nbits` up is 0. -/
def tableWord (nbits w : Nat) : CommandWord := BitVec.ofNat 72 (w % 2 ^ nbits)

/-- What the decoder reads from a word numbered as spec/opcode_table.json numbers it. The command word is presented
whole (20_memory.md R65), so its one word is 72 bits and nothing is reordered. -/
def decodeTableWord (nbits w : Nat) : Option Instr :=
  match decode (tableWord nbits w) with
  | .ok i => some i
  | .error _ => none

end Sys2Proof
end

