-- ==== Sys2Proof/Machine/State.lean ====
section
/-! DEFINITION. The state of the machine: the eighteen registers of 10_state.md R20, and the model's own fields for
the world outside the block and for what is observed of it. -/

namespace Sys2Proof.Machine

/-- `init_state` (10_state.md R24): 0, 1, 2; the value 3 is never written. -/
inductive InitState where
  | uninit
  | ready
  | failed
deriving DecidableEq, Repr

/-- `seq_mode` (10_state.md R30): which blocking operation is in progress; the value 3 is never written. -/
inductive SeqMode where
  | none
  | imm
  | trap
deriving DecidableEq, Repr

/-- `seq_phase` (10_state.md R30, R32): a pin action is due now, or a wait is in progress. -/
inductive SeqPhase where
  | act
  | wait
deriving DecidableEq, Repr

/-- `trap_half` (10_state.md R30): which half of the low-high pair is next or in progress. -/
inductive Half where
  | low
  | high
deriving DecidableEq, Repr

/-- A direction of rotation (30_encoding.md R85). It is no register: only its level is kept, in `dir_pin` (R22). -/
inductive Direction where
  | clockwise
  | counterClockwise
deriving DecidableEq, Repr

/-- The response that ends an accepted command (30_encoding.md R90). -/
inductive Response where
  | ok
  | missingArgument
  | driverDisabled
  | peripheralInitFailure
deriving DecidableEq, Repr

/-- The three error conditions (60_exceptions.md R190 to R193): the block's synchronous exceptions. -/
inductive Condition where
  | missingArgument
  | driverDisabled
  | peripheralInitFailure
deriving DecidableEq, Repr

/-- What the host holds at the block's ports (70_reset_and_hazards.md R238). -/
inductive Request where
  /-- A command word at the command port (30_encoding.md R89). -/
  | cmd (w : CommandWord)
  /-- A read of register number `n` (20_memory.md R62). -/
  | read (n : Nat)
deriving DecidableEq, Repr

/-- Which agent moves next (00_scope.md R13): the model's form of the order of events, which is an input. -/
inductive Turn where
  | host
  | tuTick
  | fire
  | reset
deriving DecidableEq, Repr

/-- One entry of the observation (00_scope.md R13, 40_port_and_gate.md R110). -/
inductive Obs where
  /-- `n` toggles of the step pin, one after another with no event between them. -/
  | stepToggle (n : Nat)
  /-- `StepSet` with its level. -/
  | stepSet (l : Level)
  /-- A write of the direction pin with its level. -/
  | dirSet (l : Level)
  /-- A write of the output-enable line with its level. -/
  | oeWrite (l : Level)
  /-- A response. -/
  | response (r : Response)
  /-- The value that a read of register number `n` returned. -/
  | readValue (n : Nat) (v : Word)
  /-- A `TuTick` event begins. -/
  | tuTick
  /-- A `Fire` event begins. -/
  | fire
  /-- A `Reset` event. -/
  | reset
deriving DecidableEq, Repr

/-- There is no fault. "Nothing the host does can make the block fault" (70_reset_and_hazards.md R238), and the block's
error conditions are responses (60_exceptions.md R190). No constructor, so the kernel knows that no step ends in one. -/
inductive Fault where
deriving DecidableEq, Repr

/-- Why a step has no meaning. Each but the first is a behaviour the spec leaves undefined and tells a model to
refuse; refusing is SAFE, since no claim about the hardware can be proved from a run that stops. -/
inductive Refusal where
  /-- An instruction the model does not have yet. Raised by an arm of `exec` that has no meaning; no arm is left. SAFE. -/
  | notModelled (mnemonic : String)
  /-- A command word that decodes to Illegal (30_encoding.md R87, U8). Raised when the host's word is accepted, and by
  a meaning given `argc` 3. SAFE. -/
  | illegalWord (e : DecodeError)
  /-- A command other than INIT while `init_state` is not READY (40_port_and_gate.md R108, U1). Raised by ENABLE, STEP,
  STEP_TIMER, STEP_TRAPEZOID, TIMER_STOP. SAFE. -/
  | notInitialised
  /-- STEP or STEP_TRAPEZOID while the generator is active (70_reset_and_hazards.md R231, U2). SAFE. -/
  | twoDisciplines
  /-- INIT while the generator is armed (70_reset_and_hazards.md R233, U3). SAFE. -/
  | initWhileArmed
  /-- ENABLE with a state above 1 (40_port_and_gate.md R106, U5). SAFE. -/
  | enableStateUndefined
  /-- A read of a register number above 4 (20_memory.md R64, U9). Raised by a host read. SAFE. -/
  | reservedRegister (n : Nat)
deriving DecidableEq, Repr

/-- The state. -/
structure State where
  /-- `step_pin`, R21. -/
  stepPin : Level
  /-- `dir_pin`, R22. -/
  dirPin : Level
  /-- `oe_n`, R23: 0 enabled for motion, 1 disabled. -/
  oeN : Level
  /-- `init_state`, R24. -/
  initState : InitState
  /-- `timer_run`, R25: false is 0 (Idle), true is 1 (Armed). -/
  timerRun : Bool
  /-- `step_budget`, R26: the magnitude. -/
  stepBudget : Word
  /-- `rate_divisor`, R27. -/
  rateDivisor : Word
  /-- `steps_emitted`, R28. -/
  stepsEmitted : Word
  /-- `divisor_counter`, R29. -/
  divisorCounter : Word
  /-- `seq_mode`, R30. -/
  seqMode : SeqMode
  /-- `seq_phase`, R30, R32. -/
  seqPhase : SeqPhase
  /-- `seq_remaining`, R30: toggles still to be made. -/
  seqRemaining : BitVec 33
  /-- `seq_delay`, R30. -/
  seqDelay : Word
  /-- `wait_cnt`, R30, R33. -/
  waitCnt : Word
  /-- `trap_idx`, R30. -/
  trapIdx : BitVec 12
  /-- `trap_delay`, R30. -/
  trapDelay : Word
  /-- `trap_phase`, R30. -/
  trapPhase : BitVec 5
  /-- `trap_half`, R30. -/
  trapHalf : Half
  /-- THE MODEL'S OWN: a STEP_TIMER has completed since the last reset (20_memory.md R64). -/
  rateWritten : Bool
  /-- THE MODEL'S OWN: how many free values have been drawn. -/
  draws : Nat
  /-- THE MODEL'S OWN: the host's requests, the one at the port first (10_state.md R31). -/
  host : List Request
  /-- THE MODEL'S OWN: the order of events to come, the next one first (00_scope.md R13). -/
  agenda : List Turn
  /-- THE MODEL'S OWN: the observation, newest entry first (40_port_and_gate.md R110). -/
  log : List Obs
deriving DecidableEq, Repr

/-- The state a reset leaves (10_state.md R40, 70_reset_and_hazards.md R220): the values the spec gives, the open pin
levels, and the unspecified contents `c`; with the model's own fields beside. -/
def State.afterReset (c : ResetContents) (draws : Nat) (host : List Request) (agenda : List Turn) (log : List Obs) :
    State where
  stepPin := Config.stepReset
  dirPin := Config.dirReset
  oeN := Config.oeNReset
  initState := .uninit
  timerRun := false
  stepBudget := c.stepBudget
  rateDivisor := c.rateDivisor
  stepsEmitted := c.stepsEmitted
  divisorCounter := c.divisorCounter
  seqMode := .none
  seqPhase := if c.seqPhase = 0#1 then .act else .wait
  seqRemaining := c.seqRemaining
  seqDelay := c.seqDelay
  waitCnt := c.waitCnt
  trapIdx := c.trapIdx
  trapDelay := c.trapDelay
  trapPhase := c.trapPhase
  trapHalf := if c.trapHalf = 0#1 then .low else .high
  rateWritten := false
  draws := draws
  host := host
  agenda := agenda
  log := log

/-- The machine right after reset: nothing held at the ports, no event to come, nothing observed; draw 0 gave the
unspecified contents. -/
def State.reset : State := State.afterReset (Config.resetContents 0) 1 [] [] []

end Sys2Proof.Machine
end

