-- ==== Sys2Proof/Machine/Flags.lean ====
section
/-! DEFINITION. The block has no flags register; these are the one-bit conditions its rules test (10_state.md R36), and
two more that the hazard rules define from them. -/

namespace Sys2Proof.Machine

/-- *busy*: a blocking operation is in progress (R30, R36). -/
def busy (s : State) : Bool := s.seqMode != .none

/-- *armed*: the periodic interrupt source runs (R36). -/
def armed (s : State) : Bool := s.timerRun

/-- *ready*: the last INIT succeeded (R36). -/
def ready (s : State) : Bool := s.initState == .ready

/-- *exhausted*: the budget is used up (R36). -/
def exhausted (s : State) : Bool := s.stepsEmitted == s.stepBudget

/-- The generator is *active*: armed, and `steps_emitted <u step_budget` (70_reset_and_hazards.md R231). -/
def active (s : State) : Bool := s.timerRun && decide (s.stepsEmitted < s.stepBudget)

/-- The state is *quiescent*: no further pin write can occur without a new command (70_reset_and_hazards.md R223). -/
def quiescent (s : State) : Bool := !busy s && (!armed s || exhausted s)

end Sys2Proof.Machine
end

