-- ==== Sys2Proof/Machine/Operands.lean ====
section
/-! DEFINITION. How a signed count becomes a direction and a magnitude (30_encoding.md R84, R85). -/

namespace Sys2Proof.Machine

/-- The signed value of an `i32` argument, two's complement (R84). -/
def signedOf (arg : Word) : Int := arg.toInt

/-- `dir(c)`: Clockwise for a positive count, CounterClockwise for zero and below (R85). -/
def dirOf (arg : Word) : Direction :=
  if 0 < signedOf arg then .clockwise else .counterClockwise

/-- `mag(c)`: the mathematical absolute value, 0 to 2^31 (R85, R127). -/
def magOf (arg : Word) : Nat := (signedOf arg).natAbs

/-- The magnitude as `step_budget` holds it, 32 bits unsigned (R26, R142). -/
def budgetOf (arg : Word) : Word := BitVec.ofNat 32 (magOf arg)

/-- The toggles of a STEP, twice the magnitude, as `seq_remaining` holds them in 33 bits (R120, R130). -/
def togglesOf (arg : Word) : BitVec 33 := BitVec.ofNat 33 (2 * magOf arg)

end Sys2Proof.Machine
end

