-- ==== Sys2Proof/Machine/Ops.lean ====
section
/-! DEFINITION. The named operations over the state: the Pulse Output Port, the Driver Enable Gate, the response, the
raising of an error condition, the order of checks common to all commands, the reset, the command port. -/

namespace Sys2Proof.Machine

/-- The outcome of a step of this machine. -/
abbrev StepOutcome := Host.Outcome State Fault Refusal

/-! ### The observation -/

/-- One more entry of the observation. -/
def observe (o : Obs) (s : State) : State := { s with log := o :: s.log }

/-- `n` more toggles in a log: toggles with nothing between them are one entry with their number. -/
def logToggles (n : Nat) : List Obs → List Obs
  | .stepToggle k :: rest => .stepToggle (k + n) :: rest
  | log => .stepToggle n :: log

/-! ### The Pulse Output Port, 40_port_and_gate.md R100 to R103 -/

/-- `StepToggle()` (R100). -/
def stepToggle (s : State) : State := { s with stepPin := ~~~s.stepPin, log := logToggles 1 s.log }

/-- `StepSet(l)` (R101). -/
def stepSet (l : Level) (s : State) : State := { s with stepPin := l, log := .stepSet l :: s.log }

/-- `StepRead()` (R102). -/
def stepRead (s : State) : Level := s.stepPin

/-- The level of the direction pin that means `d` (R103, 00_scope.md R9). -/
def dirLevel : Direction → Level
  | .clockwise => Config.dirCw
  | .counterClockwise => ~~~Config.dirCw

/-- `DirSet(d)` (R103). -/
def dirSet (d : Direction) (s : State) : State :=
  { s with dirPin := dirLevel d, log := .dirSet (dirLevel d) :: s.log }

/-! ### The Driver Enable Gate, 40_port_and_gate.md R105, R106 -/

/-- `IsEnabled()` (R105). -/
def isEnabled (s : State) : Bool := s.oeN == 0#1

/-- The write of the output-enable line (R106). -/
def oeWrite (l : Level) (s : State) : State := { s with oeN := l, log := .oeWrite l :: s.log }

/-! ### Responses and error conditions, 30_encoding.md R90, 60_exceptions.md R190 -/

/-- The 2-bit code of a response (R90). -/
def responseCode : Response → BitVec 2
  | .ok => 0#2
  | .missingArgument => 1#2
  | .driverDisabled => 2#2
  | .peripheralInitFailure => 3#2

/-- The delivery of a response. -/
def respond (r : Response) (s : State) : State := { s with log := .response r :: s.log }

/-- The response that reports a condition (R90, R191 to R193). -/
def conditionResponse : Condition → Response
  | .missingArgument => .missingArgument
  | .driverDisabled => .driverDisabled
  | .peripheralInitFailure => .peripheralInitFailure

/-- TAKING AN EXCEPTION: `raise c` ends the command with no further effect and delivers the condition's code (R190).
Nothing is saved, no mode changes and no handler is entered, so there is no return from it either (R198). -/
def raise (c : Condition) (s : State) : StepOutcome := .next (respond (conditionResponse c) s)

/-- The checks common to all commands, in the order of 40_port_and_gate.md R109; the first that applies ends the command.
`needsReady` is false for INIT only; `broken` is the refusal for a caller obligation that the command breaks in this
state (step 4); `gated` is true for the three motion commands; `effect` is the command's own rule (step 6). -/
def checked (o : Opcode) (needsReady : Bool) (broken : Option Refusal) (gated : Bool) (argc : BitVec 2) (s : State)
    (effect : StepOutcome) : StepOutcome :=
  if argc = 3#2 then .refused (.illegalWord .reservedArgc)
  else if argc.toNat < o.argsRequired then raise .missingArgument s
  else if needsReady && !ready s then .refused .notInitialised
  else match broken with
    | some r => .refused r
    | none => if gated && !isEnabled s then raise .driverDisabled s else effect

/-- The caller obligation of STEP and STEP_TRAPEZOID: one discipline at a time (70_reset_and_hazards.md R231). -/
def oneDiscipline (s : State) : Option Refusal := if active s then some .twoDisciplines else none

/-- The caller obligation of INIT: not while armed (70_reset_and_hazards.md R233). -/
def notWhileArmed (s : State) : Option Refusal := if armed s then some .initWhileArmed else none

/-! ### Reset and the command port -/

/-- The event `Reset` (70_reset_and_hazards.md R220): every register at its reset value. The unspecified contents are a
new draw. What lies outside the block stays: the host's requests, the order of events, the record of what was seen. -/
def resetEvent (s : State) : State :=
  State.afterReset (Config.resetContents s.draws) (s.draws + 1) s.host s.agenda (.reset :: s.log)

/-- A command word presented at the command port, the port ready and the host the next to move: what it takes for the
very next step to accept that word (30_encoding.md R89). -/
def present (w : CommandWord) (s : State) : State :=
  { s with seqMode := .none, host := .cmd w :: s.host, agenda := .host :: s.agenda }

end Sys2Proof.Machine
end

