-- ==== Sys2Proof/Machine/Control.lean ====
section
/-! DEFINITION. The three commands that configure the block: INIT, ENABLE, TIMER_STOP (40_port_and_gate.md). -/

namespace Sys2Proof.Machine

/-- `init_state` after a bring-up with this outcome (R104). -/
def initStateAfter : BringUp → InitState
  | .success => .ready
  | .failure => .failed

/-- The response to an INIT with this outcome: `OK`, or the condition `PeripheralInitFailure` (R104, R193). -/
def initResponse : BringUp → Response
  | .success => .ok
  | .failure => conditionResponse .peripheralInitFailure

/-- The effect of INIT with the outcome `r`: `init_state` and the response, no other register (R104). -/
def bringUpDone (r : BringUp) (s : State) : State :=
  respond (initResponse r) { s with initState := initStateAfter r, draws := s.draws + 1 }

/-- `INIT` (40_port_and_gate.md R104). The outcome of the external bring-up is a free value. -/
def execInit (argc : BitVec 2) (_arg0 _arg1 : Word) (s : State) : StepOutcome :=
  checked .init false (notWhileArmed s) false argc s (.next (bringUpDone (Config.bringUp s.draws) s))

/-- `ENABLE state` (40_port_and_gate.md R106): `oe_n <- state[0]`; a state above 1 has no defined behaviour (U5). -/
def execEnable (argc : BitVec 2) (state _arg1 : Word) (s : State) : StepOutcome :=
  checked .enable true none false argc s
    (if state.toNat ≤ 1 then .next (respond .ok (oeWrite (state.extractLsb' 0 1) s)) else .refused .enableStateUndefined)

/-- `TIMER_STOP` (40_port_and_gate.md R107). -/
def execTimerStop (argc : BitVec 2) (_arg0 _arg1 : Word) (s : State) : StepOutcome :=
  checked .timerStop true none false argc s (.next (respond .ok { s with timerRun := false }))

end Sys2Proof.Machine
end

