-- ==== Sys2Proof/Machine/Sequencer.lean ====
section
/-! DEFINITION. The sequencer: the steps of its two modes, run to completion, and the event `TuTick`
(10_state.md R30 to R34, 41_immediate_stepper.md R123, R124, 43_trapezoidal_profiler.md R172, R175, R176). -/

namespace Sys2Proof.Machine

/-! ### The steps of mode IMM -/

/-- IMM.ACT (R123). -/
def immAct (s : State) : State :=
  { stepToggle s with seqRemaining := s.seqRemaining - 1#33, waitCnt := s.seqDelay, seqPhase := .wait }

/-- IMM.WAIT_DONE (R124). -/
def immWaitDone (s : State) : State :=
  if s.seqRemaining = 0#33 then respond .ok { s with seqMode := .none } else { s with seqPhase := .act }

/-! ### The steps of mode TRAP -/

/-- Index `i` lies in the acceleration zone (R171). -/
def inAccelZone (i : BitVec 12) : Bool := decide (i.toNat < Config.trapAccelEnd)

/-- Index `i` lies in a zone where the phase counter runs, acceleration or deceleration (R172). -/
def inRampZone (i : BitVec 12) : Bool := inAccelZone i || decide (Config.trapDecelStart ≤ i.toNat)

/-- The start of an index (R172): where the cadence is full, the delay moves by one and the phase counter is cleared. -/
def trapAdjust (s : State) : State :=
  if inRampZone s.trapIdx && s.trapPhase.toNat == Config.trapCadence then
    { s with
      trapDelay := if inAccelZone s.trapIdx then s.trapDelay - 1#32 else s.trapDelay + 1#32
      trapPhase := 0#5 }
  else s

/-- The load of a wait with the current delay of the profile (R175, last two lines). -/
def trapWait (s : State) : State := { s with waitCnt := s.trapDelay, seqPhase := .wait }

/-- TRAP.ACT (R175). -/
def trapAct (s : State) : State :=
  match s.trapHalf with
  | .low => trapWait (stepSet 0#1 (trapAdjust s))
  | .high => trapWait (stepSet 1#1 s)

/-- The end of an index (R176, the branch of the high half): the phase counter, the next index, and the end of the
operation after the last index. -/
def trapIndexDone (s : State) : State :=
  let t : State := { s with
    trapPhase := if inRampZone s.trapIdx then s.trapPhase + 1#5 else s.trapPhase
    trapHalf := .low
    trapIdx := s.trapIdx + 1#12 }
  if s.trapIdx.toNat + 1 = Config.trapTotal then respond .ok { t with seqMode := .none } else { t with seqPhase := .act }

/-- TRAP.WAIT_DONE (R176). -/
def trapWaitDone (s : State) : State :=
  match s.trapHalf with
  | .low => { s with trapHalf := .high, seqPhase := .act }
  | .high => trapIndexDone s

/-! ### Run to completion, 10_state.md R34 -/

/-- A sequencer step is enabled (R34). -/
def seqEnabled (s : State) : Bool := busy s && (s.seqPhase == .act || s.waitCnt == 0#32)

/-- One sequencer step; only ever taken while one is enabled. -/
def seqStep (s : State) : State :=
  match s.seqMode, s.seqPhase with
  | .none, _ => s
  | .imm, .act => immAct s
  | .imm, .wait => immWaitDone s
  | .trap, .act => trapAct s
  | .trap, .wait => trapWaitDone s

/-- Enabled sequencer steps one after another until none is enabled, at most `fuel` of them. -/
def seqRun : Nat → State → State
  | 0, s => s
  | fuel + 1, s => if seqEnabled s then seqRun fuel (seqStep s) else s

/-- The toggles that a STEP with delay 0 still makes from an enabled state. In phase ACT a toggle comes before the test
for 0, so a count of 0, which no reachable state has there, stands for a whole turn of the 33-bit counter. -/
def burstCount (s : State) : Nat :=
  if s.seqPhase = .act ∧ s.seqRemaining = 0#33 then 2 ^ 33 else s.seqRemaining.toNat

/-- The step pin after `n` toggles. -/
def levelAfter (n : Nat) (l : Level) : Level := if n % 2 = 0 then l else ~~~l

/-- A whole STEP with delay 0, in closed form: "a model may compute the net effect in closed form instead of iterating"
(41_immediate_stepper.md R126). -/
def immBurst (s : State) : State :=
  let n := burstCount s
  respond .ok { s with
    stepPin := levelAfter n s.stepPin
    seqRemaining := 0#33
    waitCnt := 0#32
    seqPhase := .wait
    seqMode := .none
    log := if n = 0 then s.log else logToggles n s.log }

/-- More sequencer steps than any run to completion takes, but for a STEP with delay 0: four steps for each of the 4096
values of a 12-bit index. From a state that a run reaches, two are enough. -/
def seqFuel : Nat := 16384

/-- Run to completion (R34). -/
def runToCompletion (s : State) : State :=
  if s.seqMode = .imm ∧ s.seqDelay = 0#32 then (if seqEnabled s then immBurst s else s)
  else seqRun seqFuel s

/-! ### The time-unit tick, 10_state.md R33 -/

/-- The count of a tick, before the run to completion. -/
def countTick (s : State) : State :=
  if busy s && s.seqPhase == .wait && decide (0#32 < s.waitCnt) then { s with waitCnt := s.waitCnt - 1#32 } else s

/-- The event `TuTick` (R33). -/
def tuTick (s : State) : State := runToCompletion (countTick (observe .tuTick s))

end Sys2Proof.Machine
end

