-- ==== Sys2Proof/Machine/Immediate.lean ====
section
/-! DEFINITION. The Immediate Stepper: STEP (41_immediate_stepper.md). -/

namespace Sys2Proof.Machine

/-- The sequencer loaded with a STEP (R120): `2 * n` toggles, the delay, mode IMM, phase ACT. -/
def loadStep (count delay : Word) (s : State) : State :=
  { s with seqRemaining := togglesOf count, seqDelay := delay, seqPhase := .act, seqMode := .imm }

/-- The effect of STEP (R120, R121): the direction pin is written for every count; a count of 0 makes no toggle and
responds at once; any other starts the sequencer. -/
def startStep (count delay : Word) (s : State) : State :=
  if magOf count = 0 then respond .ok (dirSet (dirOf count) s)
  else runToCompletion (loadStep count delay (dirSet (dirOf count) s))

/-- `STEP step delay` (41_immediate_stepper.md R120). -/
def execStep (argc : BitVec 2) (count delay : Word) (s : State) : StepOutcome :=
  checked .step true (oneDiscipline s) true argc s (.next (startStep count delay s))

end Sys2Proof.Machine
end

