-- ==== Sys2Proof/Machine/Periodic.lean ====
section
/-! DEFINITION. The Periodic Rate Generator: STEP_TIMER and the event `Fire` (42_periodic_rate_generator.md). -/

namespace Sys2Proof.Machine

/-- The arm (R142, R143): the stop, the rewrite and the restart in one event. The timer runs after it; its stop in the
middle is inside the event, where no `Fire` can see it. -/
def arm (budget divisor : Word) (s : State) : State :=
  { dirSet (dirOf budget) s with
    stepBudget := budgetOf budget
    rateDivisor := divisor
    stepsEmitted := 0#32
    divisorCounter := 0#32
    timerRun := true
    rateWritten := true }

/-- `STEP_TIMER step_budget rate_divisor` (42_periodic_rate_generator.md R142). -/
def execStepTimer (argc : BitVec 2) (budget divisor : Word) (s : State) : StepOutcome :=
  checked .stepTimer true none true argc s (.next (respond .ok (arm budget divisor s)))

/-- The first statement of the handler (R145): one toggle when the budget is not used up and the divisor period begins. -/
def fireToggle (s : State) : State :=
  if s.stepsEmitted < s.stepBudget ∧ s.divisorCounter = 0#32 then
    { stepToggle s with stepsEmitted := s.stepsEmitted + 1#32 }
  else s

/-- The rest of the handler (R145): the increment modulo 2^32, and the reset to 0 at the divisor. -/
def fireDivide (s : State) : State :=
  let c := s.divisorCounter + 1#32
  { s with divisorCounter := if c = s.rateDivisor then 0#32 else c }

/-- The event `Fire`, the interrupt handler tick (R145). Only ever taken while `timer_run == 1`. -/
def fire (s : State) : State := fireDivide (fireToggle (observe .fire s))

end Sys2Proof.Machine
end

