-- ==== Sys2Proof/Machine/Trapezoid.lean ====
section
/-! DEFINITION. The Trapezoidal Profiler: STEP_TRAPEZOID (43_trapezoidal_profiler.md). -/

namespace Sys2Proof.Machine

/-- The sequencer loaded with a profile (R170): index 0, the start delay, the low half, mode TRAP, phase ACT. -/
def loadProfile (s : State) : State :=
  { s with
    trapIdx := 0#12
    trapDelay := BitVec.ofNat 32 Config.trapStartDelay
    trapPhase := 0#5
    trapHalf := .low
    seqPhase := .act
    seqMode := .trap }

/-- `STEP_TRAPEZOID` (43_trapezoidal_profiler.md R170, R174). -/
def execStepTrapezoid (argc : BitVec 2) (_arg0 _arg1 : Word) (s : State) : StepOutcome :=
  checked .stepTrapezoid true (oneDiscipline s) true argc s
    (.next (runToCompletion (loadProfile (dirSet .clockwise s))))

end Sys2Proof.Machine
end

