-- ==== Sys2Proof/Machine/Dispatch.lean ====
section
/-! DEFINITION. One arm per command: the event `Cmd` for a command that the port has accepted (40_port_and_gate.md R109). -/

namespace Sys2Proof.Machine

def exec (i : Instr) (s : State) : Host.Outcome State Fault Refusal :=
  match i with
  | .init argc arg0 arg1 => Sys2Proof.Machine.execInit argc arg0 arg1 s
  | .enable argc state arg1 => Sys2Proof.Machine.execEnable argc state arg1 s
  | .step argc count delay => Sys2Proof.Machine.execStep argc count delay s
  | .stepTimer argc budget divisor => Sys2Proof.Machine.execStepTimer argc budget divisor s
  | .stepTrapezoid argc arg0 arg1 => Sys2Proof.Machine.execStepTrapezoid argc arg0 arg1 s
  | .timerStop argc arg0 arg1 => Sys2Proof.Machine.execTimerStop argc arg0 arg1 s

end Sys2Proof.Machine
end

