-- ==== Sys2Proof/Machine/Registers.lean ====
section
/-! DEFINITION. The register space: five read-only 32-bit registers and the event `RegRead` (20_memory.md R60 to R64). -/

namespace Sys2Proof.Machine

/-- `init_state` as the two bits `STATUS` shows (R24, R61). -/
def initStateBits : InitState → BitVec 2
  | .uninit => 0#2
  | .ready => 1#2
  | .failed => 2#2

/-- `STATUS` (R61): 31:6 read as 0, 5:4 `init_state`, 3 `dir_pin`, 2 `step_pin`, 1 `oe_n`, 0 `timer_run`. -/
def statusWord (s : State) : Word :=
  0#26 ++ initStateBits s.initState ++ s.dirPin ++ stepRead s ++ s.oeN ++ BitVec.ofBool s.timerRun

/-- The content of register number `n` (R61); a number above 4 is reserved and has none. -/
def regContent (n : Nat) (s : State) : Option Word :=
  match n with
  | 0 => some (statusWord s)
  | 1 => some s.stepBudget
  | 2 => some s.rateDivisor
  | 3 => some s.stepsEmitted
  | 4 => some s.divisorCounter
  | _ => none

/-- Register number `n` still holds its unspecified reset content: it belongs to the RateProgram and no STEP_TIMER has
completed since reset (R64). -/
def regUnwritten (n : Nat) (s : State) : Bool := n != 0 && !s.rateWritten

/-- The event `RegRead(n)` (R62, R64). It changes no register; the value is the host's. Before the first STEP_TIMER a
read of the RateProgram is a fresh draw. -/
def regRead (n : Nat) (s : State) : StepOutcome :=
  match regContent n s with
  | none => .refused (.reservedRegister n)
  | some v =>
    if regUnwritten n s then
      .next { observe (.readValue n (Config.unwrittenRead s.draws)) s with draws := s.draws + 1 }
    else .next (observe (.readValue n v) s)

end Sys2Proof.Machine
end

