-- ==== Sys2Proof/Machine/Events.lean ====
section
/-! DEFINITION. The events and who takes them: the acceptance of a command word, the host's turn, the turns of the two
time bases and of reset (00_scope.md R13, 10_state.md R31, 30_encoding.md R89). -/

namespace Sys2Proof.Machine

/-- The event `Cmd(w)`: the port is ready and takes the word (R89, R109 step 1). -/
def acceptWord (w : CommandWord) (s : State) : StepOutcome :=
  match decode w with
  | .error e => .refused (.illegalWord e)
  | .ok i => exec i s

/-- The host's request at the port is taken. -/
def takeRequest (r : Request) (s : State) : StepOutcome :=
  match r with
  | .cmd w => acceptWord w s
  | .read n => regRead n s

/-- The host's turn. While the port is not ready its request stays held and nothing happens (R31, R89). -/
def hostTurn (s : State) : StepOutcome :=
  if busy s then .next s
  else match s.host with
    | [] => .next s
    | r :: rest => takeRequest r { s with host := rest }

/-- The base-period timer's turn. While it is stopped no `Fire` occurs (10_state.md R25). -/
def fireTurn (s : State) : State := if armed s then fire s else s

/-- The turn of one agent. -/
def takeTurn (t : Turn) (s : State) : StepOutcome :=
  match t with
  | .host => hostTurn s
  | .tuTick => .next (tuTick s)
  | .fire => .next (fireTurn s)
  | .reset => .next (resetEvent s)

/-- The next event of the agenda. With none to come the block rests as it is: every change of state is made by an event. -/
def nextEvent (s : State) : StepOutcome :=
  match s.agenda with
  | [] => .next s
  | t :: rest => takeTurn t { s with agenda := rest }

end Sys2Proof.Machine
end

