-- ==== Sys2Proof/Machine/Step.lean ====
section
/-! DEFINITION. One step of the machine, and the placing of one command word for the next step to take. -/

namespace Sys2Proof.Machine

/-- One step: the next event (00_scope.md R13). -/
def step (s : State) : Host.Outcome State Fault Refusal := nextEvent s

/-- `s` with the command word whose bits are `w`, numbered as spec/opcode_table.json numbers them, at the ready command
port and the host next to move. -/
def State.withFetchWord (s : State) (nbits w : Nat) : State := present (tableWord nbits w) s

end Sys2Proof.Machine
end

