-- ==== Sys2Proof/Safety.lean ====
section
/-! DEFINITION. The terms in which claims are stated: the closed form of the profile, repeated ticks and firings, counts
over the observation, and the invariant of every state a run reaches. -/

namespace Sys2Proof.Machine

/-! ### The profile in closed form, 43_trapezoidal_profiler.md -/

/-- `d(i)`: the delay of step index `i` (R171). -/
def profileDelay (i : Nat) : Nat :=
  if i < Config.trapAccelEnd then Config.trapStartDelay - i / Config.trapCadence
  else if i < Config.trapDecelStart then Config.trapFloor
  else Config.trapFloor + 1 + (i - Config.trapDecelStart) / Config.trapCadence

/-- The phase counter during step index `i` (R172): the position in the cadence, frozen at 20 in the cruise zone. -/
def profilePhase (i : Nat) : Nat :=
  if i < Config.trapAccelEnd then i % Config.trapCadence
  else if i < Config.trapDecelStart then Config.trapCadence
  else (i - Config.trapDecelStart) % Config.trapCadence

/-- `S(i)`: the tick at which step index `i` begins (R177). -/
def profileStart : Nat → Nat
  | 0 => 0
  | i + 1 => profileStart i + 2 * profileDelay i

/-- The level the profiler holds during a half of a pulse (R173). -/
def halfLevel : Half → Level
  | .low => 0#1
  | .high => 1#1

/-! ### Repeated events -/

/-- `n` time-unit ticks with no other event between them. -/
def ticks : Nat → State → State
  | 0, s => s
  | n + 1, s => tuTick (ticks n s)

/-- `n` firings with no other event between them. -/
def firings : Nat → State → State
  | 0, s => s
  | n + 1, s => fire (firings n s)

/-- `n` sequencer steps. -/
def seqSteps : Nat → State → State
  | 0, s => s
  | n + 1, s => seqStep (seqSteps n s)

/-- The number of base periods between two toggles: the divisor, and 2^32 for the divisor 0 (R146, R152). -/
def period (divisor : Word) : Nat := if divisor = 0#32 then 2 ^ 32 else divisor.toNat

/-! ### Counts over an observation -/

/-- The toggles of the step pin in a log. -/
def togglesIn : List Obs → Nat
  | [] => 0
  | .stepToggle n :: rest => n + togglesIn rest
  | _ :: rest => togglesIn rest

/-- The writes of the direction pin in a log. -/
def dirSetsIn : List Obs → Nat
  | [] => 0
  | .dirSet _ :: rest => dirSetsIn rest + 1
  | _ :: rest => dirSetsIn rest

/-- The writes of the step pin in a log, toggles and sets. -/
def pinWritesIn : List Obs → Nat
  | [] => 0
  | .stepToggle n :: rest => n + pinWritesIn rest
  | .stepSet _ :: rest => pinWritesIn rest + 1
  | _ :: rest => pinWritesIn rest

/-- The writes of any of the three pins in a log (40_port_and_gate.md R110). -/
def latchWritesIn : List Obs → Nat
  | [] => 0
  | .stepToggle n :: rest => n + latchWritesIn rest
  | .stepSet _ :: rest => latchWritesIn rest + 1
  | .dirSet _ :: rest => latchWritesIn rest + 1
  | .oeWrite _ :: rest => latchWritesIn rest + 1
  | _ :: rest => latchWritesIn rest

/-- The pulses of the profiler in a log: its writes of level 1. -/
def highSetsIn : List Obs → Nat
  | [] => 0
  | .stepSet l :: rest => l.toNat + highSetsIn rest
  | _ :: rest => highSetsIn rest

/-- The responses in a log. -/
def responsesIn : List Obs → Nat
  | [] => 0
  | .response _ :: rest => responsesIn rest + 1
  | _ :: rest => responsesIn rest

/-- The responses still owed: one while a blocking command is in progress (30_encoding.md R90). -/
def responsesOwed (s : State) : Nat := if busy s then 1 else 0

/-! ### Same registers -/

/-- The three pin latches are the same. -/
abbrev SamePins (s t : State) : Prop := t.stepPin = s.stepPin ∧ t.dirPin = s.dirPin ∧ t.oeN = s.oeN

/-- The control registers `init_state` and `timer_run` are the same. -/
abbrev SameControl (s t : State) : Prop := t.initState = s.initState ∧ t.timerRun = s.timerRun

/-- The four RateProgram registers are the same. -/
abbrev SameRateProgram (s t : State) : Prop :=
  t.stepBudget = s.stepBudget ∧ t.rateDivisor = s.rateDivisor ∧ t.stepsEmitted = s.stepsEmitted ∧
    t.divisorCounter = s.divisorCounter

/-- The nine sequencer registers are the same. -/
abbrev SameSequencer (s t : State) : Prop :=
  t.seqMode = s.seqMode ∧ t.seqPhase = s.seqPhase ∧ t.seqRemaining = s.seqRemaining ∧ t.seqDelay = s.seqDelay ∧
    t.waitCnt = s.waitCnt ∧ t.trapIdx = s.trapIdx ∧ t.trapDelay = s.trapDelay ∧ t.trapPhase = s.trapPhase ∧
    t.trapHalf = s.trapHalf

/-- All eighteen registers of 10_state.md R20 are the same. -/
abbrev SameRegisters (s t : State) : Prop :=
  SamePins s t ∧ SameControl s t ∧ SameRateProgram s t ∧ SameSequencer s t

/-! ### The commands behind their checks -/

/-- The effect of a command's own rule, which 40_port_and_gate.md R109 reaches at step 6. -/
def ownEffect (i : Instr) (s : State) : StepOutcome :=
  match i with
  | .init _ _ _ => .next (bringUpDone (Config.bringUp s.draws) s)
  | .enable _ state _ =>
    if state.toNat ≤ 1 then .next (respond .ok (oeWrite (state.extractLsb' 0 1) s)) else .refused .enableStateUndefined
  | .step _ count delay => .next (startStep count delay s)
  | .stepTimer _ budget divisor => .next (respond .ok (arm budget divisor s))
  | .stepTrapezoid _ _ _ => .next (runToCompletion (loadProfile (dirSet .clockwise s)))
  | .timerStop _ _ _ => .next (respond .ok { s with timerRun := false })

/-- The next step of `s` is the acceptance of one of these commands: the host's turn, the port ready, and at its head a
word that decodes to a command with such an opcode (10_state.md R31, 30_encoding.md R89). -/
abbrev Accepts (os : List Opcode) (s : State) : Prop :=
  ∃ rest w q i, s.agenda = .host :: rest ∧ s.seqMode = .none ∧ s.host = .cmd w :: q ∧ decode w = .ok i ∧ i.opcode ∈ os

/-- The next step of `s` is a tick. -/
abbrev Ticks (s : State) : Prop := ∃ rest, s.agenda = .tuTick :: rest

/-- The next step of `s` is a firing of a generator that is armed. -/
abbrev Fires (s : State) : Prop := ∃ rest, s.agenda = .fire :: rest ∧ s.timerRun = true

/-! ### The invariant -/

/-- The generator (10_state.md R42 (a), (b), R26, R28): once a STEP_TIMER has completed, no more toggles than the budget,
no budget above 2^31, and the counter inside the divisor period where the divisor is at least 1. An armed generator
has been written, by a block that is initialised. -/
def rateInv (s : State) : Prop :=
  (s.rateWritten = true → s.stepsEmitted ≤ s.stepBudget ∧ s.stepBudget.toNat ≤ 2 ^ 31 ∧
    (s.rateDivisor ≠ 0#32 → s.divisorCounter < s.rateDivisor)) ∧
  (s.timerRun = true → s.rateWritten = true ∧ s.initState = .ready)

/-- A blocking command in progress (R42 (e)): the sequencer waits with ticks still to count, the gate is enabled, the
block is initialised, and the generator is not active. -/
def busyInv (s : State) : Prop :=
  busy s = true → s.seqPhase = .wait ∧ 0 < s.waitCnt.toNat ∧ s.oeN = 0#1 ∧ s.initState = .ready ∧ active s = false

/-- A STEP in progress (R42 (c)): at most 2^32 - 1 toggles are still to be made, and the wait is part of its delay. -/
def immInv (s : State) : Prop :=
  s.seqMode = .imm → s.seqRemaining.toNat < 2 ^ 32 ∧ s.waitCnt ≤ s.seqDelay

/-- A profile in progress (R42 (d), R172): the index is below 3200, the delay is `d(i)`, the phase counter is in step,
the wait is part of the delay, and the pin is at the level of the half in progress. -/
def trapInv (s : State) : Prop :=
  s.seqMode = .trap → s.trapIdx.toNat < Config.trapTotal ∧ s.trapDelay.toNat = profileDelay s.trapIdx.toNat ∧
    s.trapPhase.toNat = profilePhase s.trapIdx.toNat ∧ s.waitCnt ≤ s.trapDelay ∧ s.stepPin = halfLevel s.trapHalf

/-- What holds in every state that a run from reset reaches, between two events (10_state.md R42). -/
def RunInv (s : State) : Prop := rateInv s ∧ busyInv s ∧ immInv s ∧ trapInv s

/-- The ticks that a blocking command in progress still takes: the wait in progress and every wait to come. -/
def ticksLeft (s : State) : Nat :=
  match s.seqMode with
  | .none => 0
  | .imm => s.waitCnt.toNat + s.seqRemaining.toNat * s.seqDelay.toNat
  | .trap => s.waitCnt.toNat + (if s.trapHalf = .low then s.trapDelay.toNat else 0) +
      (profileStart Config.trapTotal - profileStart (s.trapIdx.toNat + 1))

end Sys2Proof.Machine
end

