-- ==== Sys2Proof/Certificates/Slice0/Obligations.lean ====
section
/-! DEFINITION. The statements for the provers, each with the rule or section of spec/ that it formalises. -/

open Sys2Proof Sys2Proof.Machine

/-! ### Encoding -/

/-- Decoding the word of a well-formed command gives the command back, every argument field included. -/
def Obligations.DecodeOfEncode : Prop :=
  ∀ i : Instr, i.wellFormed = true → decode (encode i) = .ok i

/-- A word that decodes is the word of the command it decodes to, and that command is well-formed. -/
def Obligations.EncodeOfDecode : Prop :=
  ∀ (w : CommandWord) (i : Instr), decode w = .ok i → encode i = w ∧ i.wellFormed = true

/-- R86: the decoder, field by field, on every word; the mask and match of the opcode table; a small `argc` decodes and
then raises. -/
def Obligations.DecoderReadsEveryWord : Prop :=
  ∀ w : CommandWord,
    (w.extractLsb' 66 2 ≠ 0#2 ∨ w.extractLsb' 64 2 = 3#2 → ∃ e, decode w = .error e) ∧
    (w.extractLsb' 68 4 = 0#4 ∨ 7#4 ≤ w.extractLsb' 68 4 → ∃ e, decode w = .error e) ∧
    (w.extractLsb' 66 2 = 0#2 → w.extractLsb' 64 2 ≠ 3#2 → w.extractLsb' 68 4 ≠ 0#4 → w.extractLsb' 68 4 < 7#4 →
      ∃ i, decode w = .ok i ∧ i.opcode.code = w.extractLsb' 68 4 ∧ i.argc = w.extractLsb' 64 2 ∧
        i.arg0 = w.extractLsb' 32 32 ∧ i.arg1 = w.extractLsb' 0 32 ∧
        w &&& 0xFC0000000000000000#72 = (i.opcode.code.setWidth 72) <<< 68 ∧
        ∀ s, i.argc.toNat < i.opcode.argsRequired → acceptWord w s = .next (respond .missingArgument s))

/-- R87: which words are Illegal, and that the machine refuses exactly these as words, with no response. -/
def Obligations.IllegalWordsRefused : Prop :=
  ∀ w : CommandWord,
    ((∃ e, decode w = .error e) ↔
      w.extractLsb' 68 4 = 0#4 ∨ 7 ≤ (w.extractLsb' 68 4).toNat ∨ w.extractLsb' 66 2 ≠ 0#2 ∨ w.extractLsb' 64 2 = 3#2) ∧
    ∀ e s, decode w = .error e → acceptWord w s = .refused (.illegalWord e)

/-- The worked encodings of 30_encoding.md section 7, which the spec derives from its format. -/
def Obligations.WorkedEncodings : Prop :=
  decode 0x100000000000000000#72 = .ok (.init 0#2 0#32 0#32) ∧
  decode 0x210000000000000000#72 = .ok (.enable 1#2 0#32 0#32) ∧
  decode 0x210000000100000000#72 = .ok (.enable 1#2 1#32 0#32) ∧
  decode 0x320000000500000002#72 = .ok (.step 2#2 5#32 2#32) ∧
  decode 0x32FFFFFFFB00000002#72 = .ok (.step 2#2 (BitVec.ofInt 32 (-5)) 2#32) ∧
  decode 0x420000001400000004#72 = .ok (.stepTimer 2#2 20#32 4#32) ∧
  decode 0x500000000000000000#72 = .ok (.stepTrapezoid 0#2 0#32 0#32) ∧
  decode 0x600000000000000000#72 = .ok (.timerStop 0#2 0#32 0#32) ∧
  decode 0x310000000500000000#72 = .ok (.step 1#2 5#32 0#32)

/-- R85: the direction and the magnitude of a signed count, that no register truncates the magnitude, and that STEP and
STEP_TIMER split their count in this one way. -/
def Obligations.SignedCountSplits : Prop :=
  ∀ c : Word,
    (0 < c.toInt → dirOf c = .clockwise) ∧ (c.toInt ≤ 0 → dirOf c = .counterClockwise) ∧
    magOf c = c.toInt.natAbs ∧ magOf c ≤ 2 ^ 31 ∧ (budgetOf c).toNat = magOf c ∧ (togglesOf c).toNat = 2 * magOf c ∧
    (c = 0x80000000#32 → magOf c = 2 ^ 31) ∧
    ∀ (d : Word) (s t : State), s.initState = .ready → s.oeN = 0#1 → s.seqMode = .none →
      (exec (.stepTimer 2#2 c d) s = .next t → t.dirPin = dirLevel (dirOf c) ∧ t.stepBudget.toNat = magOf c) ∧
      (active s = false → exec (.step 2#2 c d) s = .next t → t.dirPin = dirLevel (dirOf c) ∧
        togglesIn t.log + (if busy t then t.seqRemaining.toNat else 0) = togglesIn s.log + 2 * magOf c)

/-! ### Reset -/

/-- R220: a reset in any state, also in the middle of a blocking command, whose remaining toggles are then not made and
whose response is never delivered, however many ticks follow. The contents of the registers the rule calls unspecified are
a new draw (the model's choice, log entry 6). That the host's requests and the order of events survive the reset, and that
it is observed as the one entry `reset` and as no pin write, is the model's choice too (log entry 21). -/
def Obligations.ResetRestoresRegisters : Prop :=
  ∀ s rest, s.agenda = .reset :: rest →
    ∃ t, step s = .next t ∧ t.timerRun = false ∧ t.initState = .uninit ∧ t.seqMode = .none ∧
      t.stepPin = Config.stepReset ∧ t.dirPin = Config.dirReset ∧ t.oeN = Config.oeNReset ∧
      t.log = .reset :: s.log ∧ t.host = s.host ∧ t.agenda = rest ∧
      ∀ k, (ticks k t).seqMode = .none ∧ pinWritesIn (ticks k t).log = pinWritesIn s.log ∧
        responsesIn (ticks k t).log = responsesIn s.log

/-- After a reset the timer and the ticks change no register: nothing moves until a command comes (70_reset_and_hazards.md
section 1). -/
def Obligations.NothingMovesAfterReset : Prop :=
  ∀ s rest, s.timerRun = false → s.seqMode = .none → (s.agenda = .tuTick :: rest ∨ s.agenda = .fire :: rest) →
    ∃ t, step s = .next t ∧ SameRegisters s t ∧ t.agenda = rest ∧ t.host = s.host

/-- The invariant holds at reset. -/
def Obligations.InvariantAtReset : Prop := RunInv State.reset

/-- The invariant of 10_state.md section 12 is kept by every step, from every state that has it. -/
def Obligations.InvariantKept : Prop := ∀ s t, RunInv s → step s = .next t → RunInv t

/-! ### The port and the gate -/

/-- R100, R101, R102, R103: the primitives of the Pulse Output Port, each with the registers it leaves. -/
def Obligations.PortPrimitives : Prop :=
  ∀ (s : State) (l : Level),
    stepToggle s = { s with stepPin := ~~~s.stepPin, log := logToggles 1 s.log } ∧ (stepToggle s).stepPin ≠ s.stepPin ∧
    stepSet l s = { s with stepPin := l, log := .stepSet l :: s.log } ∧
    ((stepSet l s).stepPin ≠ s.stepPin ↔ s.stepPin ≠ l) ∧
    stepRead s = s.stepPin ∧ (statusWord s).extractLsb' 2 1 = stepRead s ∧
    (dirSet .clockwise s).dirPin = Config.dirCw ∧ (dirSet .counterClockwise s).dirPin = ~~~Config.dirCw ∧
    ∀ d, dirSet d s = { s with dirPin := (dirSet d s).dirPin, log := .dirSet (dirSet d s).dirPin :: s.log }

/-! ### The commands -/

/-- R109: the order of the checks; the first that applies ends the command, and a raise changes no register. -/
def Obligations.ChecksInOrder : Prop :=
  (∀ w e s, decode w = .error e → acceptWord w s = .refused (.illegalWord e)) ∧
  ∀ (i : Instr) (s : State), i.wellFormed = true →
    if i.argc.toNat < i.opcode.argsRequired then exec i s = .next { s with log := .response .missingArgument :: s.log }
    else if i.opcode ≠ .init ∧ s.initState ≠ .ready then exec i s = .refused .notInitialised
    else if (i.opcode = .step ∨ i.opcode = .stepTrapezoid) ∧ s.timerRun = true ∧ s.stepsEmitted < s.stepBudget then
      exec i s = .refused .twoDisciplines
    else if i.opcode = .init ∧ s.timerRun = true then exec i s = .refused .initWhileArmed
    else if (i.opcode = .step ∨ i.opcode = .stepTimer ∨ i.opcode = .stepTrapezoid) ∧ s.oeN ≠ 0#1 then
      exec i s = .next { s with log := .response .driverDisabled :: s.log }
    else exec i s = ownEffect i s

/-- R104, R233: INIT draws its outcome, writes `init_state` and nothing else, and responds; its arguments are ignored;
while armed it is refused. -/
def Obligations.InitResult : Prop :=
  ∀ (argc : BitVec 2) (arg0 arg1 : Word) (s : State), argc ≠ 3#2 →
    CommandWord.op (encode (.init argc arg0 arg1)) = 0x1#4 ∧
    (s.timerRun = false → exec (.init argc arg0 arg1) s = .next { s with
      initState := if Config.bringUp s.draws = .success then .ready else .failed
      draws := s.draws + 1
      log := .response (if Config.bringUp s.draws = .success then .ok else .peripheralInitFailure) :: s.log }) ∧
    (s.timerRun = true → exec (.init argc arg0 arg1) s = .refused .initWhileArmed)

/-- R106: ENABLE writes the level of the output-enable line and nothing else; a missing argument and a state above 1;
during a blocking command it is not taken. -/
def Obligations.EnableResult : Prop :=
  ∀ (argc : BitVec 2) (state arg1 : Word) (s : State),
    CommandWord.op (encode (.enable argc state arg1)) = 0x2#4 ∧
    (∀ rest, s.seqMode ≠ .none → s.agenda = .host :: rest → s.host.head? = some (.cmd (encode (.enable argc state arg1))) →
      step s = .next { s with agenda := rest }) ∧
    (argc = 0#2 → exec (.enable argc state arg1) s = .next { s with log := .response .missingArgument :: s.log }) ∧
    (argc = 1#2 ∨ argc = 2#2 → s.initState = .ready → state = 0#32 → exec (.enable argc state arg1) s =
      .next { s with oeN := 0#1, log := .response .ok :: .oeWrite 0#1 :: s.log }) ∧
    (argc = 1#2 ∨ argc = 2#2 → s.initState = .ready → state = 1#32 → exec (.enable argc state arg1) s =
      .next { s with oeN := 1#1, log := .response .ok :: .oeWrite 1#1 :: s.log }) ∧
    (argc = 1#2 ∨ argc = 2#2 → s.initState = .ready → 1#32 < state →
      exec (.enable argc state arg1) s = .refused .enableStateUndefined)

/-- R107: TIMER_STOP clears `timer_run` and nothing else, whatever the gate; no `Fire` occurs after it; and from Idle the
only way back to Armed is STEP_TIMER, which clears both counters. -/
def Obligations.TimerStopResult : Prop :=
  (∀ (argc : BitVec 2) (arg0 arg1 : Word) (s : State), argc ≠ 3#2 → s.initState = .ready →
    CommandWord.op (encode (.timerStop argc arg0 arg1)) = 0x6#4 ∧
    exec (.timerStop argc arg0 arg1) s = .next { s with timerRun := false, log := .response .ok :: s.log } ∧
    ∀ t rest, exec (.timerStop argc arg0 arg1) s = .next t →
      step { t with agenda := .fire :: rest } = .next { t with agenda := rest }) ∧
  ∀ s t, s.timerRun = false → step s = .next t → t.timerRun = true →
    ∃ rest w q i, s.agenda = .host :: rest ∧ s.host = .cmd w :: q ∧ decode w = .ok i ∧ i.opcode = .stepTimer ∧
      t.stepsEmitted = 0#32 ∧ t.divisorCounter = 0#32

/-- STEP with a count other than 0 and a delay of at least 1: the direction pin, the first toggle, and the sequencer in its
first wait (41_immediate_stepper.md sections 1 and 2). -/
def Obligations.StepStarts : Prop :=
  ∀ (count delay : Word) (s : State), s.initState = .ready → active s = false → s.oeN = 0#1 →
    count ≠ 0#32 → delay ≠ 0#32 →
    exec (.step 2#2 count delay) s = .next { s with
      dirPin := if 0 < count.toInt then Config.dirCw else ~~~Config.dirCw
      stepPin := ~~~s.stepPin
      seqRemaining := BitVec.ofNat 33 (2 * count.toInt.natAbs - 1)
      seqDelay := delay
      waitCnt := delay
      seqPhase := .wait
      seqMode := .imm
      log := .stepToggle 1 :: .dirSet (if 0 < count.toInt then Config.dirCw else ~~~Config.dirCw) :: s.log }

/-- R121: the gate is checked before the count; `step 0 d` writes the direction pin to CounterClockwise, makes no toggle
and responds in the same event. -/
def Obligations.StepZeroCount : Prop :=
  ∀ (delay : Word) (s : State), s.initState = .ready → active s = false →
    (s.oeN = 1#1 → exec (.step 2#2 0#32 delay) s = .next { s with log := .response .driverDisabled :: s.log }) ∧
    (s.oeN = 0#1 → exec (.step 2#2 0#32 delay) s = .next { s with
      dirPin := ~~~Config.dirCw, log := .response .ok :: .dirSet (~~~Config.dirCw) :: s.log })

/-- STEP with delay 0: all `2 * n` toggles and the response inside the one event (41_immediate_stepper.md section 3). -/
def Obligations.StepDelayZero : Prop :=
  ∀ (count : Word) (s : State), s.initState = .ready → active s = false → s.oeN = 0#1 → count ≠ 0#32 →
    exec (.step 2#2 count 0#32) s = .next { s with
      dirPin := if 0 < count.toInt then Config.dirCw else ~~~Config.dirCw
      seqRemaining := 0#33
      seqDelay := 0#32
      waitCnt := 0#32
      seqPhase := .wait
      seqMode := .none
      log := .response .ok :: .stepToggle (2 * count.toInt.natAbs) ::
        .dirSet (if 0 < count.toInt then Config.dirCw else ~~~Config.dirCw) :: s.log }

/-- The schedule of STEP, `n = |count|` and `d = delay` both at least 1 (41_immediate_stepper.md section 3): toggle `j` falls
in tick `j * d`, the response in tick `2 * n * d`, and the step pin ends at its level from before the command. -/
def Obligations.StepSchedule : Prop :=
  ∀ (count delay : Word) (s t : State), s.initState = .ready → active s = false → s.oeN = 0#1 →
    count ≠ 0#32 → delay ≠ 0#32 → exec (.step 2#2 count delay) s = .next t →
    (∀ k, k < 2 * count.toInt.natAbs * delay.toNat →
      (ticks k t).seqMode = .imm ∧
      (ticks k t).stepPin = levelAfter (k / delay.toNat + 1) s.stepPin ∧
      togglesIn (ticks k t).log = togglesIn s.log + (k / delay.toNat + 1) ∧
      responsesIn (ticks k t).log = responsesIn s.log ∧ (ticks k t).dirPin = t.dirPin) ∧
    (ticks (2 * count.toInt.natAbs * delay.toNat) t).seqMode = .none ∧
    (ticks (2 * count.toInt.natAbs * delay.toNat) t).stepPin = s.stepPin ∧
    (ticks (2 * count.toInt.natAbs * delay.toNat) t).dirPin = t.dirPin ∧
    togglesIn (ticks (2 * count.toInt.natAbs * delay.toNat) t).log = togglesIn s.log + 2 * count.toInt.natAbs ∧
    (ticks (2 * count.toInt.natAbs * delay.toNat) t).log.head? = some (.response .ok)

/-- R142: STEP_TIMER writes the direction pin, the four RateProgram registers and `timer_run`, in one event, and nothing
else; its two conditions change nothing, a running program included. -/
def Obligations.StepTimerResult : Prop :=
  ∀ (argc : BitVec 2) (budget divisor : Word) (s : State),
    CommandWord.op (encode (.stepTimer argc budget divisor)) = 0x4#4 ∧
    (argc = 2#2 → s.initState = .ready → s.oeN = 0#1 → exec (.stepTimer argc budget divisor) s = .next { s with
      dirPin := if 0 < budget.toInt then Config.dirCw else ~~~Config.dirCw
      stepBudget := BitVec.ofNat 32 budget.toInt.natAbs
      rateDivisor := divisor
      stepsEmitted := 0#32
      divisorCounter := 0#32
      timerRun := true
      rateWritten := true
      log := .response .ok :: .dirSet (if 0 < budget.toInt then Config.dirCw else ~~~Config.dirCw) :: s.log }) ∧
    (argc.toNat < 2 → exec (.stepTimer argc budget divisor) s =
      .next { s with log := .response .missingArgument :: s.log }) ∧
    (argc = 2#2 → s.initState = .ready → s.oeN = 1#1 → exec (.stepTimer argc budget divisor) s =
      .next { s with log := .response .driverDisabled :: s.log })

/-- STEP_TRAPEZOID: direction Clockwise, the first write of the pin, and the sequencer in the first wait of index 0
(43_trapezoidal_profiler.md sections 2 and 3). -/
def Obligations.StepTrapezoidStarts : Prop :=
  ∀ (argc : BitVec 2) (arg0 arg1 : Word) (s : State), argc ≠ 3#2 → s.initState = .ready → active s = false →
    s.oeN = 0#1 →
    exec (.stepTrapezoid argc arg0 arg1) s = .next { s with
      dirPin := Config.dirCw
      stepPin := 0#1
      trapIdx := 0#12
      trapDelay := 10#32
      trapPhase := 0#5
      trapHalf := .low
      waitCnt := 10#32
      seqPhase := .wait
      seqMode := .trap
      log := .stepSet 0#1 :: .dirSet Config.dirCw :: s.log }

/-- The schedule of the profile (43_trapezoidal_profiler.md section 4): from tick `S(i)` the pin is low for `d(i)` ticks,
from tick `S(i) + d(i)` it is high for `d(i)` ticks, and the command ends in tick 10400 with the pin high after 3200
pulses. -/
def Obligations.TrapezoidSchedule : Prop :=
  profileStart 3200 = 10400 ∧
  ∀ (argc : BitVec 2) (arg0 arg1 : Word) (s t : State), argc ≠ 3#2 → s.initState = .ready → active s = false →
    s.oeN = 0#1 → exec (.stepTrapezoid argc arg0 arg1) s = .next t →
    (∀ i r, i < 3200 → r < profileDelay i →
      (let u := ticks (profileStart i + r) t
       u.seqMode = .trap ∧ u.trapIdx.toNat = i ∧ u.trapHalf = .low ∧ u.stepPin = 0#1 ∧
         u.waitCnt.toNat = profileDelay i - r ∧ highSetsIn u.log = highSetsIn s.log + i) ∧
      (let u := ticks (profileStart i + profileDelay i + r) t
       u.seqMode = .trap ∧ u.trapIdx.toNat = i ∧ u.trapHalf = .high ∧ u.stepPin = 1#1 ∧
         u.waitCnt.toNat = profileDelay i - r ∧ highSetsIn u.log = highSetsIn s.log + i + 1)) ∧
    (∀ k, k < 10400 → (ticks k t).seqMode = .trap ∧ responsesIn (ticks k t).log = responsesIn s.log) ∧
    (let u := ticks 10400 t
     u.seqMode = .none ∧ u.stepPin = 1#1 ∧ u.dirPin = Config.dirCw ∧ highSetsIn u.log = highSetsIn s.log + 3200 ∧
       u.log.head? = some (.response .ok))

/-- R171: the delay of every step index of a profile, zone by zone, as the machine holds it at the start of that index. -/
def Obligations.ProfileDelays : Prop :=
  ∀ (argc : BitVec 2) (arg0 arg1 : Word) (s t : State), argc ≠ 3#2 → s.initState = .ready → active s = false →
    s.oeN = 0#1 → exec (.stepTrapezoid argc arg0 arg1) s = .next t → ∀ i, i < 3200 →
      (ticks (profileStart i) t).trapIdx.toNat = i ∧
      (i < 200 → (ticks (profileStart i) t).trapDelay.toNat = 10 - i / 20) ∧
      (200 ≤ i → i < 3000 → (ticks (profileStart i) t).trapDelay.toNat = 1) ∧
      (3000 ≤ i → (ticks (profileStart i) t).trapDelay.toNat = 2 + (i - 3000) / 20)

/-- R174: the profile writes the direction pin to Clockwise once, at entry, after the gate check and before its first
write of the step pin; no later event of it writes the pin. -/
def Obligations.ProfileDirectionFixed : Prop :=
  (∀ (argc : BitVec 2) (arg0 arg1 : Word) (s t : State), argc ≠ 3#2 → s.initState = .ready → active s = false →
    s.oeN = 0#1 → exec (.stepTrapezoid argc arg0 arg1) s = .next t →
    t.dirPin = Config.dirCw ∧ t.log = .stepSet 0#1 :: .dirSet Config.dirCw :: s.log) ∧
  (∀ (argc : BitVec 2) (arg0 arg1 : Word) (s t : State), s.oeN = 1#1 → exec (.stepTrapezoid argc arg0 arg1) s = .next t →
    t.dirPin = s.dirPin ∧ dirSetsIn t.log = dirSetsIn s.log) ∧
  ∀ s t, s.seqMode = .trap → (∀ rest, s.agenda ≠ .reset :: rest) → step s = .next t →
    t.dirPin = s.dirPin ∧ dirSetsIn t.log = dirSetsIn s.log

/-! ### Conditions and responses -/

/-- R191: when `MissingArgument` is raised, by which commands, and that it changes no state. -/
def Obligations.MissingArgumentExactly : Prop :=
  ∀ (i : Instr) (s : State), i.wellFormed = true →
    (exec i s = .next { s with log := .response .missingArgument :: s.log } ↔
      (i.opcode = .enable ∧ i.argc = 0#2) ∨ ((i.opcode = .step ∨ i.opcode = .stepTimer) ∧ (i.argc = 0#2 ∨ i.argc = 1#2))) ∧
    ∀ t, exec i s = .next t → t.log.head? = some (.response .missingArgument) →
      t = { s with log := .response .missingArgument :: s.log }

/-- R192: `DriverDisabled` is raised by the three motion commands, at entry, when `oe_n` is 1, and changes no state; it is
never raised by a tick or a firing. -/
def Obligations.DriverDisabledExactly : Prop :=
  (∀ (i : Instr) (s : State), i.wellFormed = true → i.opcode.argsRequired ≤ i.argc.toNat → s.initState = .ready →
    s.oeN = 1#1 → i.opcode = .stepTimer ∨ ((i.opcode = .step ∨ i.opcode = .stepTrapezoid) ∧ active s = false) →
    exec i s = .next { s with log := .response .driverDisabled :: s.log }) ∧
  (∀ (i : Instr) (s t : State), exec i s = .next t → t.log.head? = some (.response .driverDisabled) →
    t = { s with log := .response .driverDisabled :: s.log } ∧ s.oeN = 1#1 ∧
      (i.opcode = .step ∨ i.opcode = .stepTimer ∨ i.opcode = .stepTrapezoid)) ∧
  ∀ s, (tuTick s).log.head? ≠ some (.response .driverDisabled) ∧ (fire s).log.head? ≠ some (.response .driverDisabled)

/-- R193: `PeripheralInitFailure` is raised by INIT only, exactly when the bring-up fails; it leaves `init_state` FAILED and
changes no other register, and every other command is then refused once its arguments are all there. -/
def Obligations.PeripheralInitFailureExactly : Prop :=
  (∀ (i : Instr) (s t : State), exec i s = .next t →
    (t.log.head? = some (.response .peripheralInitFailure) ↔ i.opcode = .init ∧ Config.bringUp s.draws = .failure) ∧
    (i.opcode = .init → t = { s with
      initState := if Config.bringUp s.draws = .failure then .failed else .ready
      draws := s.draws + 1
      log := .response (if Config.bringUp s.draws = .failure then .peripheralInitFailure else .ok) :: s.log })) ∧
  ∀ (j : Instr) (s : State), s.initState = .failed → j.wellFormed = true → j.opcode ≠ .init →
    j.opcode.argsRequired ≤ j.argc.toNat → exec j s = .refused .notInitialised

/-- R90: the codes; exactly one response for every accepted command, in its own event unless it starts motion, and then in
the event that ends the operation. -/
def Obligations.OneResponsePerCommand : Prop :=
  (responseCode .ok = 0#2 ∧ responseCode .missingArgument = 1#2 ∧ responseCode .driverDisabled = 2#2 ∧
    responseCode .peripheralInitFailure = 3#2) ∧
  (∀ i s t, s.seqMode = .none → exec i s = .next t →
    responsesIn t.log + responsesOwed t = responsesIn s.log + 1 ∧
    (i.opcode ≠ .step → i.opcode ≠ .stepTrapezoid → t.seqMode = .none)) ∧
  (∀ s, responsesIn (tuTick s).log + responsesOwed (tuTick s) = responsesIn s.log + responsesOwed s) ∧
  (∀ s, responsesIn (fire s).log + responsesOwed (fire s) = responsesIn s.log + responsesOwed s) ∧
  (∀ s, s.seqMode ≠ .none → (tuTick s).seqMode = .none → (tuTick s).log.head? = some (.response .ok))

/-- R108: before a successful INIT every other command is refused, once its arguments are all there. -/
def Obligations.NotReadyRefused : Prop :=
  ∀ (i : Instr) (s : State), i.wellFormed = true → i.opcode ≠ .init → s.initState ≠ .ready →
    (i.opcode.argsRequired ≤ i.argc.toNat → exec i s = .refused .notInitialised) ∧
    (i.argc.toNat < i.opcode.argsRequired → exec i s = .next { s with log := .response .missingArgument :: s.log })

/-- R231: STEP and STEP_TRAPEZOID are refused while the generator is active, and an exhausted generator is not active. -/
def Obligations.OneDisciplineAtATime : Prop :=
  ∀ (s : State), s.initState = .ready → s.timerRun = true →
    (s.stepsEmitted < s.stepBudget → ∀ count delay argc arg0 arg1, argc ≠ 3#2 →
      exec (.step 2#2 count delay) s = .refused .twoDisciplines ∧
      exec (.stepTrapezoid argc arg0 arg1) s = .refused .twoDisciplines) ∧
    (s.stepsEmitted = s.stepBudget → s.oeN = 0#1 → ∀ count delay argc arg0 arg1, argc ≠ 3#2 →
      (∃ t, exec (.step 2#2 count delay) s = .next t) ∧ ∃ t, exec (.stepTrapezoid argc arg0 arg1) s = .next t)

/-! ### The register space -/

/-- R61, R62: what a host read of each register returns, bit by bit for `STATUS`, that it changes no register, and that
none is taken during a blocking command. -/
def Obligations.RegisterMap : Prop :=
  (∀ (s : State) (n : Nat) (rest : List Turn) (q : List Request),
    s.seqMode ≠ .none → s.agenda = .host :: rest → s.host = .read n :: q → step s = .next { s with agenda := rest }) ∧
  ∀ (s : State) (n : Nat) (rest : List Turn) (q : List Request),
    s.seqMode = .none → s.agenda = .host :: rest → s.host = .read n :: q → n ≤ 4 → (n ≠ 0 → s.rateWritten = true) →
    ∃ v : Word, step s = .next { s with agenda := rest, host := q, log := .readValue n v :: s.log } ∧
      (n = 0 → v.extractLsb' 6 26 = 0#26 ∧
        v.extractLsb' 4 2 = (match s.initState with | .uninit => 0#2 | .ready => 1#2 | .failed => 2#2) ∧
        v.extractLsb' 3 1 = s.dirPin ∧ v.extractLsb' 2 1 = s.stepPin ∧ v.extractLsb' 1 1 = s.oeN ∧
        v.extractLsb' 0 1 = (if s.timerRun then 1#1 else 0#1)) ∧
      (n = 1 → v = s.stepBudget) ∧ (n = 2 → v = s.rateDivisor) ∧ (n = 3 → v = s.stepsEmitted) ∧
      (n = 4 → v = s.divisorCounter)

/-- A read of the RateProgram before the first STEP_TIMER since reset returns a fresh draw, and a reserved register number is
refused (20_memory.md section 2; that the model draws, where the rule also allows a fault, is its choice, log entry 4). -/
def Obligations.ReadBeforeFirstArm : Prop :=
  ∀ (s : State) (n : Nat),
    (1 ≤ n → n ≤ 4 → s.rateWritten = false → regRead n s =
      .next { s with draws := s.draws + 1, log := .readValue n (Config.unwrittenRead s.draws) :: s.log }) ∧
    (4 < n → regRead n s = .refused (.reservedRegister n))

/-- R63: the host writes no register directly: a read leaves every register; a step that changes one is a reset, a tick, a
firing while armed, or a command that the port accepts; and the only command that writes the two counters is STEP_TIMER. -/
def Obligations.HostWritesNoRegister : Prop :=
  (∀ n s t, regRead n s = .next t → SameRegisters s t ∧ t.host = s.host ∧ t.agenda = s.agenda) ∧
  (∀ s t, step s = .next t → ¬SameRegisters s t → ∃ rest, s.agenda = .reset :: rest ∨ s.agenda = .tuTick :: rest ∨
    (s.agenda = .fire :: rest ∧ s.timerRun = true) ∨ (s.agenda = .host :: rest ∧ ∃ w q, s.host = .cmd w :: q)) ∧
  ∀ i s t, exec i s = .next t → t.stepsEmitted ≠ s.stepsEmitted ∨ t.divisorCounter ≠ s.divisorCounter →
    i.opcode = .stepTimer ∧ t.timerRun = true ∧ t.stepsEmitted = 0#32 ∧ t.divisorCounter = 0#32

/-- Which registers a step can change, and through which event: the 'written by' column of 10_state.md section 1, all
eighteen registers. A command writes only in the step that accepts it: the host's turn, the port ready, its word at the
head. A word that is held while the port is not ready writes nothing. -/
def Obligations.WritersOfRegisters : Prop :=
  ∀ s t, step s = .next t → (∀ rest, s.agenda ≠ .reset :: rest) →
    (t.stepPin ≠ s.stepPin → Fires s ∨ (Ticks s ∧ s.seqMode ≠ .none) ∨ Accepts [.step, .stepTrapezoid] s) ∧
    (t.dirPin ≠ s.dirPin → Accepts [.step, .stepTimer, .stepTrapezoid] s) ∧
    (t.oeN ≠ s.oeN → Accepts [.enable] s) ∧
    (t.initState ≠ s.initState → Accepts [.init] s) ∧
    (t.timerRun ≠ s.timerRun → Accepts [.stepTimer, .timerStop] s) ∧
    (t.stepBudget ≠ s.stepBudget ∨ t.rateDivisor ≠ s.rateDivisor → Accepts [.stepTimer] s) ∧
    (t.stepsEmitted ≠ s.stepsEmitted ∨ t.divisorCounter ≠ s.divisorCounter → Fires s ∨ Accepts [.stepTimer] s) ∧
    (t.seqMode ≠ s.seqMode ∨ t.seqPhase ≠ s.seqPhase ∨ t.waitCnt ≠ s.waitCnt →
      (Ticks s ∧ s.seqMode ≠ .none) ∨ Accepts [.step, .stepTrapezoid] s) ∧
    (t.seqRemaining ≠ s.seqRemaining → (Ticks s ∧ s.seqMode = .imm) ∨ Accepts [.step] s) ∧
    (t.seqDelay ≠ s.seqDelay → Accepts [.step] s) ∧
    (t.trapIdx ≠ s.trapIdx ∨ t.trapDelay ≠ s.trapDelay ∨ t.trapPhase ≠ s.trapPhase ∨ t.trapHalf ≠ s.trapHalf →
      (Ticks s ∧ s.seqMode = .trap) ∨ Accepts [.stepTrapezoid] s)

/-! ### The generator -/

/-- R141: the two states of the generator and every transition between them. -/
def Obligations.TimerRunTransitions : Prop :=
  State.reset.timerRun = false ∧
  (∀ argc budget divisor s t, exec (.stepTimer argc budget divisor) s = .next t →
    t.timerRun = (if argc = 2#2 ∧ s.oeN = 0#1 then true else s.timerRun)) ∧
  (∀ argc arg0 arg1 s t, exec (.timerStop argc arg0 arg1) s = .next t → t.timerRun = false) ∧
  (∀ s, (fire s).timerRun = s.timerRun) ∧ (∀ s, (resetEvent s).timerRun = false) ∧
  ∀ s t, step s = .next t → t.timerRun ≠ s.timerRun →
    (∃ rest, s.agenda = .reset :: rest) ∨
    ∃ rest w q i, s.agenda = .host :: rest ∧ s.host = .cmd w :: q ∧ decode w = .ok i ∧
      (i.opcode = .stepTimer ∨ i.opcode = .timerStop)

/-- R145: `Fire` occurs only while `timer_run` is 1, and what it writes, with the observation. -/
def Obligations.FireEffect : Prop :=
  ∀ s rest, s.agenda = .fire :: rest →
    (s.timerRun = false → step s = .next { s with agenda := rest }) ∧
    (s.timerRun = true → s.stepsEmitted < s.stepBudget → s.divisorCounter = 0#32 → step s = .next { s with
      agenda := rest
      stepPin := ~~~s.stepPin
      stepsEmitted := s.stepsEmitted + 1#32
      divisorCounter := if s.divisorCounter + 1#32 = s.rateDivisor then 0#32 else s.divisorCounter + 1#32
      log := .stepToggle 1 :: .fire :: s.log }) ∧
    (s.timerRun = true → (s.stepBudget ≤ s.stepsEmitted ∨ s.divisorCounter ≠ 0#32) → step s = .next { s with
      agenda := rest
      divisorCounter := if s.divisorCounter + 1#32 = s.rateDivisor then 0#32 else s.divisorCounter + 1#32
      log := .fire :: s.log })

/-- The closed form of the generator (42_periodic_rate_generator.md sections 3 and 4): after firing `m`, `steps_emitted` is
the smaller of the budget and `ceil(m / R)`, `divisor_counter` is `m mod R`, and the pin has been toggled `steps_emitted`
times, where `R` is the divisor, or 2^32 for the divisor 0. -/
def Obligations.GeneratorClosedForm : Prop :=
  ∀ (budget divisor : Word) (s t : State), s.initState = .ready → s.oeN = 0#1 →
    exec (.stepTimer 2#2 budget divisor) s = .next t →
    ∀ m, (firings m t).stepsEmitted.toNat = min budget.toInt.natAbs ((m + period divisor - 1) / period divisor) ∧
      (firings m t).divisorCounter.toNat = m % period divisor ∧
      (firings m t).stepPin = levelAfter (firings m t).stepsEmitted.toNat s.stepPin ∧
      (firings m t).timerRun = true

/-- R148: an exhausted generator never toggles again and never stops; only its divisor counter goes on. -/
def Obligations.ExhaustionIsTerminal : Prop :=
  ∀ (s : State) (m : Nat), s.timerRun = true → s.stepsEmitted = s.stepBudget →
    (firings m s).stepPin = s.stepPin ∧ (firings m s).stepsEmitted = s.stepsEmitted ∧ (firings m s).timerRun = true ∧
    pinWritesIn (firings m s).log = pinWritesIn s.log ∧
    (firings (m + 1) s).divisorCounter =
      (if (firings m s).divisorCounter + 1#32 = s.rateDivisor then 0#32 else (firings m s).divisorCounter + 1#32)

/-- R150: the handler does not consult the gate: it does the same whatever `oe_n` is, and ENABLE leaves the generator. -/
def Obligations.HandlerIgnoresGate : Prop :=
  (∀ (s : State) (l : Level), fire { s with oeN := l } = { fire s with oeN := l }) ∧
  ∀ argc state arg1 s t, exec (.enable argc state arg1) s = .next t →
    t.timerRun = s.timerRun ∧ SameRateProgram s t ∧ t.stepPin = s.stepPin

/-- R129: a `Fire` during a STEP takes no part in it; with the generator exhausted it changes only `divisor_counter`; with
the generator active the STEP would have been refused at acceptance. -/
def Obligations.FireDuringStep : Prop :=
  (∀ s rest, s.seqMode = .imm → s.timerRun = true → s.agenda = .fire :: rest →
    step s = .next (fire { s with agenda := rest }) ∧ SameSequencer s (fire { s with agenda := rest })) ∧
  (∀ s : State, s.stepBudget ≤ s.stepsEmitted →
    fire s = { s with divisorCounter := (fire s).divisorCounter, log := .fire :: s.log }) ∧
  ∀ (s : State) (count delay : Word), s.initState = .ready → s.timerRun = true → s.stepsEmitted < s.stepBudget →
    exec (.step 2#2 count delay) s = .refused .twoDisciplines

/-! ### The sequencer -/

/-- R123, R124: the sequencer steps of mode IMM. -/
def Obligations.SequencerStepsImm : Prop :=
  ∀ s : State, s.seqMode = .imm →
    (s.seqPhase = .act → seqStep s = { s with
      stepPin := ~~~s.stepPin
      seqRemaining := s.seqRemaining - 1#33
      waitCnt := s.seqDelay
      seqPhase := .wait
      log := logToggles 1 s.log }) ∧
    (s.seqPhase = .wait → s.waitCnt = 0#32 → s.seqRemaining = 0#33 →
      seqStep s = { s with seqMode := .none, log := .response .ok :: s.log }) ∧
    (s.seqPhase = .wait → s.waitCnt = 0#32 → s.seqRemaining ≠ 0#33 → seqStep s = { s with seqPhase := .act }) ∧
    (s.seqPhase = .wait → s.waitCnt ≠ 0#32 → seqEnabled s = false)

/-- R175, R176: the sequencer steps of mode TRAP, and that in a state of the invariant the delay is at least 1 and a tick
makes at most one write of the step pin. -/
def Obligations.SequencerStepsTrap : Prop :=
  ∀ s : State, s.seqMode = .trap →
    (s.seqPhase = .act → s.trapHalf = .low →
      (s.trapIdx < 200#12 ∨ 3000#12 ≤ s.trapIdx) → s.trapPhase = 20#5 →
      seqStep s = { s with
        trapDelay := if s.trapIdx < 200#12 then s.trapDelay - 1#32 else s.trapDelay + 1#32
        trapPhase := 0#5
        stepPin := 0#1
        waitCnt := if s.trapIdx < 200#12 then s.trapDelay - 1#32 else s.trapDelay + 1#32
        seqPhase := .wait
        log := .stepSet 0#1 :: s.log }) ∧
    (s.seqPhase = .act → s.trapHalf = .low →
      ¬((s.trapIdx < 200#12 ∨ 3000#12 ≤ s.trapIdx) ∧ s.trapPhase = 20#5) →
      seqStep s =
        { s with stepPin := 0#1, waitCnt := s.trapDelay, seqPhase := .wait, log := .stepSet 0#1 :: s.log }) ∧
    (s.seqPhase = .act → s.trapHalf = .high →
      seqStep s =
        { s with stepPin := 1#1, waitCnt := s.trapDelay, seqPhase := .wait, log := .stepSet 1#1 :: s.log }) ∧
    (s.seqPhase = .wait → s.waitCnt = 0#32 → s.trapHalf = .low →
      seqStep s = { s with trapHalf := .high, seqPhase := .act }) ∧
    (s.seqPhase = .wait → s.waitCnt = 0#32 → s.trapHalf = .high → s.trapIdx = 3199#12 →
      seqStep s = { s with
        trapPhase := s.trapPhase + 1#5, trapHalf := .low, trapIdx := 3200#12, seqMode := .none
        log := .response .ok :: s.log }) ∧
    (s.seqPhase = .wait → s.waitCnt = 0#32 → s.trapHalf = .high → s.trapIdx ≠ 3199#12 →
      seqStep s = { s with
        trapPhase := if s.trapIdx < 200#12 ∨ 3000#12 ≤ s.trapIdx then s.trapPhase + 1#5 else s.trapPhase
        trapHalf := .low, trapIdx := s.trapIdx + 1#12, seqPhase := .act }) ∧
    (RunInv s → 1 ≤ s.trapDelay.toNat ∧ pinWritesIn (tuTick s).log ≤ pinWritesIn s.log + 1)

/-- R34: when a sequencer step is enabled; running to completion, from every state, is some number of sequencer steps, each enabled when it is taken, until
none is enabled (the closed form that the model uses for delay 0 is one of these); and none is enabled after a tick or a
command, so it is complete before the next event. -/
def Obligations.RunToCompletionIsSteps : Prop :=
  (∀ s : State, seqEnabled s = true ↔
    s.seqMode ≠ .none ∧ (s.seqPhase = .act ∨ (s.seqPhase = .wait ∧ s.waitCnt = 0#32))) ∧
  (∀ s : State, ∃ k, runToCompletion s = seqSteps k s ∧ (∀ j, j < k → seqEnabled (seqSteps j s) = true) ∧
    seqEnabled (runToCompletion s) = false) ∧
  (∀ s : State, seqEnabled (tuTick s) = false) ∧
  ∀ i s t, s.seqMode = .none → exec i s = .next t → seqEnabled t = false

/-- R33: what a tick does; while idle it changes no register; a wait of `d` ticks only counts until its `d`-th tick; a wait
of 0 takes no tick. -/
def Obligations.WaitsAreExact : Prop :=
  (∀ s : State, tuTick s = runToCompletion
    (if s.seqMode ≠ .none ∧ s.seqPhase = .wait ∧ 0#32 < s.waitCnt
      then { s with waitCnt := s.waitCnt - 1#32, log := .tuTick :: s.log } else { s with log := .tuTick :: s.log })) ∧
  (∀ s : State, s.seqMode = .none → SameRegisters s (tuTick s)) ∧
  (∀ (s : State) (k : Nat), s.seqMode ≠ .none → s.seqPhase = .wait → k < s.waitCnt.toNat →
    ticks k s = { s with waitCnt := s.waitCnt - BitVec.ofNat 32 k, log := List.replicate k .tuTick ++ s.log }) ∧
  (∀ s : State, s.seqMode ≠ .none → s.seqPhase = .wait → s.waitCnt = 1#32 →
    tuTick s = runToCompletion { s with waitCnt := 0#32, log := .tuTick :: s.log }) ∧
  ∀ s : State, s.seqMode ≠ .none → s.seqPhase = .wait → s.waitCnt = 0#32 → seqEnabled s = true

/-- R31: while a blocking command is in progress no command and no read is taken and the request stays held; ticks and
firings are taken. -/
def Obligations.BusyHoldsPort : Prop :=
  ∀ s rest, s.seqMode ≠ .none →
    (s.agenda = .host :: rest → step s = .next { s with agenda := rest }) ∧
    (s.agenda = .tuTick :: rest → step s = .next (tuTick { s with agenda := rest })) ∧
    (s.agenda = .fire :: rest → s.timerRun = true → step s = .next (fire { s with agenda := rest }))

/-- A step runs the decoded command: with the port ready, the host next to move and a word at the port that decodes, the
step is `exec` of its command, the word taken and the turn used; and a placed word is run so. -/
def Obligations.StepRunsDecoded : Prop :=
  (∀ s rest w q i, s.agenda = .host :: rest → s.seqMode = .none → s.host = .cmd w :: q → decode w = .ok i →
    step s = exec i { s with agenda := rest, host := q }) ∧
  ∀ (s : State) (nbits w : Nat) (i : Instr), decodeTableWord nbits w = some i →
    step (s.withFetchWord nbits w) = exec i { s with seqMode := .none }

/-- Each tick brings a blocking command exactly one tick nearer to its end, and the command ends in the tick that brings the
count to 0: `2 * n * delay` ticks for STEP, 10400 for STEP_TRAPEZOID, whatever firings come between
(41_immediate_stepper.md section 3, 43_trapezoidal_profiler.md section 4, 70_reset_and_hazards.md section 4). -/
def Obligations.TicksBringTheEnd : Prop :=
  (∀ s : State, RunInv s → s.seqMode ≠ .none →
    ticksLeft (tuTick s) + 1 = ticksLeft s ∧ ((tuTick s).seqMode = .none ↔ ticksLeft s = 1) ∧
    ticksLeft (fire s) = ticksLeft s) ∧
  (∀ (count delay : Word) (s t : State), s.initState = .ready → active s = false → s.oeN = 0#1 → s.seqMode = .none →
    exec (.step 2#2 count delay) s = .next t → ticksLeft t = 2 * count.toInt.natAbs * delay.toNat) ∧
  ∀ (argc : BitVec 2) (arg0 arg1 : Word) (s t : State), argc ≠ 3#2 → s.initState = .ready → active s = false →
    s.oeN = 0#1 → exec (.stepTrapezoid argc arg0 arg1) s = .next t → ticksLeft t = 10400

/-! ### The whole machine -/

/-- While the gate reports disabled no step writes the step pin, but for a firing of a generator that the caller left active
(40_port_and_gate.md section 7). -/
def Obligations.NoPulseWhileDisabled : Prop :=
  ∀ s t, RunInv s → s.oeN = 1#1 → (∀ rest, s.agenda ≠ .reset :: rest) →
    ((∀ rest, s.agenda ≠ .fire :: rest) ∨ active s = false) → step s = .next t →
    t.stepPin = s.stepPin ∧ pinWritesIn t.log = pinWritesIn s.log

/-- R223: from a quiescent state no further pin write occurs without a new command, however many ticks, firings and host
reads come, and the state stays quiescent. -/
def Obligations.QuiescentWritesNoPin : Prop :=
  ∀ (s t : State) (events : List Turn), quiescent s = true → (∀ e ∈ events, e ≠ .reset) → (∀ w, .cmd w ∉ s.host) →
    Sys2Proof.core.run events.length { s with agenda := events } = .next t →
    SamePins s t ∧ latchWritesIn t.log = latchWritesIn s.log ∧ quiescent t = true

/-- A tick and a firing at the same instant may be taken in either order: in a state of the invariant every register is the
same after both (20_memory.md section 3, 60_exceptions.md section 2). -/
def Obligations.TickAndFireCommute : Prop :=
  ∀ s : State, RunInv s → s.timerRun = true → SameRegisters (fire (tuTick s)) (tuTick (fire s))
end

