-- ==== Sys2Proof/Laws/Encoding.lean ====
section
/-! SUPPORT. The fields of a word put together from fields: the arithmetic under the encoder. -/

namespace Sys2Proof

/-- Appending a 32-bit field on the right. -/
theorem shiftLeft_or_32 (p : Nat) {q : Nat} (h : q < 2 ^ 32) : p <<< 32 ||| q = p * 2 ^ 32 + q := by
  rw [Nat.shiftLeft_eq, Nat.mul_comm, Nat.two_pow_add_eq_or_of_lt h, Nat.mul_comm]

/-- Appending a 2-bit field on the right. -/
theorem shiftLeft_or_2 (p : Nat) {q : Nat} (h : q < 2 ^ 2) : p <<< 2 ||| q = p * 2 ^ 2 + q := by
  rw [Nat.shiftLeft_eq, Nat.mul_comm, Nat.two_pow_add_eq_or_of_lt h, Nat.mul_comm]

/-- The number that a word of the one format stands for (30_encoding.md R80). -/
theorem word_toNat (o : BitVec 4) (r a : BitVec 2) (x y : Word) :
    (o ++ r ++ a ++ x ++ y : CommandWord).toNat =
      (((o.toNat * 2 ^ 2 + r.toNat) * 2 ^ 2 + a.toNat) * 2 ^ 32 + x.toNat) * 2 ^ 32 + y.toNat := by
  simp only [BitVec.toNat_append]
  rw [shiftLeft_or_32 _ y.isLt, shiftLeft_or_32 _ x.isLt, shiftLeft_or_2 _ a.isLt, shiftLeft_or_2 _ r.isLt]

/-- Every field of a word is read back as it was put in. -/
theorem word_fields (o : BitVec 4) (r a : BitVec 2) (x y : Word) :
    CommandWord.op (o ++ r ++ a ++ x ++ y) = o ∧ CommandWord.rsv (o ++ r ++ a ++ x ++ y) = r ∧
      CommandWord.argc (o ++ r ++ a ++ x ++ y) = a ∧ CommandWord.arg0 (o ++ r ++ a ++ x ++ y) = x ∧
      CommandWord.arg1 (o ++ r ++ a ++ x ++ y) = y := by
  have ho := o.isLt
  have hr := r.isLt
  have ha := a.isLt
  have hx := x.isLt
  have hy := y.isLt
  have hn := word_toNat o r a x y
  refine ⟨?_, ?_, ?_, ?_, ?_⟩ <;>
    (apply BitVec.eq_of_toNat_eq
     simp only [CommandWord.op, CommandWord.rsv, CommandWord.argc, CommandWord.arg0, CommandWord.arg1]
     rw [BitVec.extractLsb'_toNat, hn, Nat.shiftRight_eq_div_pow]
     omega)

/-- The code of an opcode names that opcode. -/
theorem ofCode_code (o : Opcode) : Opcode.ofCode o.code = some o := by cases o <;> rfl

/-- An `op` field names no command exactly where it is 0 or at least 7; otherwise it is its command's code. -/
theorem ofCode_cases (b : BitVec 4) :
    (Opcode.ofCode b = none ∧ (b = 0#4 ∨ 7 ≤ b.toNat)) ∨
      ∃ o, Opcode.ofCode b = some o ∧ o.code = b ∧ b ≠ 0#4 ∧ b.toNat < 7 := by
  revert b
  decide

/-- A command built from an opcode has that opcode and the fields it was given. -/
theorem opcode_instr (o : Opcode) (c : BitVec 2) (a b : Word) :
    (o.instr c a b).opcode = o ∧ (o.instr c a b).argc = c ∧ (o.instr c a b).arg0 = a ∧ (o.instr c a b).arg1 = b := by
  cases o <;> exact ⟨rfl, rfl, rfl, rfl⟩

/-- A command is its opcode with its fields. -/
theorem instr_opcode (i : Instr) : i.opcode.instr i.argc i.arg0 i.arg1 = i := by cases i <;> rfl

end Sys2Proof
end

