-- ==== Sys2Proof/Laws/Operands.lean ====
section
/-! SUPPORT. Facts about the operands and the pin arithmetic: no magnitude is truncated, toggles compose. -/

namespace Sys2Proof.Machine

theorem magOf_le (c : Word) : magOf c ≤ 2 ^ 31 := by
  have h₁ := BitVec.toInt_lt (x := c)
  have h₂ := BitVec.le_toInt (x := c)
  simp only [magOf, signedOf]
  omega

theorem budgetOf_toNat (c : Word) : (budgetOf c).toNat = magOf c := by
  have := magOf_le c
  simp only [budgetOf, BitVec.toNat_ofNat]
  omega

theorem togglesOf_toNat (c : Word) : (togglesOf c).toNat = 2 * magOf c := by
  have := magOf_le c
  simp only [togglesOf, BitVec.toNat_ofNat]
  omega

theorem magOf_ne_zero {c : Word} (h : c ≠ 0#32) : magOf c ≠ 0 := by
  simp only [magOf, signedOf]
  intro h0
  apply h
  have := Int.natAbs_eq_zero.mp h0
  exact BitVec.toInt_inj.mp (by simpa using this)

/-- The level of the direction pin that a count asks for. -/
theorem dirLevel_dirOf (c : Word) : dirLevel (dirOf c) = if 0 < c.toInt then Config.dirCw else ~~~Config.dirCw := by
  unfold dirOf signedOf
  split <;> rfl

/-- The count after the first toggle. -/
theorem togglesOf_pred {c : Word} (h : c ≠ 0#32) : togglesOf c - 1#33 = BitVec.ofNat 33 (2 * c.toInt.natAbs - 1) := by
  have := magOf_le c
  have h0 := magOf_ne_zero h
  apply BitVec.eq_of_toNat_eq
  rw [BitVec.toNat_sub, togglesOf_toNat]
  simp [magOf, signedOf] at *
  omega

@[simp] theorem levelAfter_zero (l : Level) : levelAfter 0 l = l := rfl

theorem levelAfter_succ (n : Nat) (l : Level) : levelAfter (n + 1) l = ~~~levelAfter n l := by
  rcases Nat.mod_two_eq_zero_or_one n with h | h <;> simp [levelAfter, Nat.add_mod, h]

theorem levelAfter_not (n : Nat) (l : Level) : levelAfter n (~~~l) = levelAfter (n + 1) l := by
  rcases Nat.mod_two_eq_zero_or_one n with h | h <;> simp [levelAfter, Nat.add_mod, h]

theorem levelAfter_even (n : Nat) (l : Level) : levelAfter (2 * n) l = l := by simp [levelAfter]

theorem logToggles_logToggles (m n : Nat) (log : List Obs) :
    logToggles n (logToggles m log) = logToggles (m + n) log := by
  cases log with
  | nil => rfl
  | cons o rest => cases o <;> simp [logToggles, Nat.add_assoc]

@[simp] theorem togglesIn_logToggles (n : Nat) (log : List Obs) : togglesIn (logToggles n log) = n + togglesIn log := by
  cases log with
  | nil => rfl
  | cons o rest =>
    cases o <;> simp [logToggles, togglesIn]
    omega

@[simp] theorem responsesIn_logToggles (n : Nat) (log : List Obs) : responsesIn (logToggles n log) = responsesIn log := by
  cases log with
  | nil => rfl
  | cons o rest => cases o <;> rfl

end Sys2Proof.Machine
end

