-- ==== Sys2Proof/Laws/State.lean ====
section
/-! SUPPORT. What each named update of the state does to each field, true by definition: later proofs read a field through
these and never unfold an update. -/

namespace Sys2Proof.Machine

/-! ### `observe` -/

@[simp] theorem observe_stepPin (o : Obs) (s : State) : (observe o s).stepPin = s.stepPin := rfl
@[simp] theorem observe_dirPin (o : Obs) (s : State) : (observe o s).dirPin = s.dirPin := rfl
@[simp] theorem observe_oeN (o : Obs) (s : State) : (observe o s).oeN = s.oeN := rfl
@[simp] theorem observe_initState (o : Obs) (s : State) : (observe o s).initState = s.initState := rfl
@[simp] theorem observe_timerRun (o : Obs) (s : State) : (observe o s).timerRun = s.timerRun := rfl
@[simp] theorem observe_stepBudget (o : Obs) (s : State) : (observe o s).stepBudget = s.stepBudget := rfl
@[simp] theorem observe_rateDivisor (o : Obs) (s : State) : (observe o s).rateDivisor = s.rateDivisor := rfl
@[simp] theorem observe_stepsEmitted (o : Obs) (s : State) : (observe o s).stepsEmitted = s.stepsEmitted := rfl
@[simp] theorem observe_divisorCounter (o : Obs) (s : State) : (observe o s).divisorCounter = s.divisorCounter := rfl
@[simp] theorem observe_seqMode (o : Obs) (s : State) : (observe o s).seqMode = s.seqMode := rfl
@[simp] theorem observe_seqPhase (o : Obs) (s : State) : (observe o s).seqPhase = s.seqPhase := rfl
@[simp] theorem observe_seqRemaining (o : Obs) (s : State) : (observe o s).seqRemaining = s.seqRemaining := rfl
@[simp] theorem observe_seqDelay (o : Obs) (s : State) : (observe o s).seqDelay = s.seqDelay := rfl
@[simp] theorem observe_waitCnt (o : Obs) (s : State) : (observe o s).waitCnt = s.waitCnt := rfl
@[simp] theorem observe_trapIdx (o : Obs) (s : State) : (observe o s).trapIdx = s.trapIdx := rfl
@[simp] theorem observe_trapDelay (o : Obs) (s : State) : (observe o s).trapDelay = s.trapDelay := rfl
@[simp] theorem observe_trapPhase (o : Obs) (s : State) : (observe o s).trapPhase = s.trapPhase := rfl
@[simp] theorem observe_trapHalf (o : Obs) (s : State) : (observe o s).trapHalf = s.trapHalf := rfl
@[simp] theorem observe_rateWritten (o : Obs) (s : State) : (observe o s).rateWritten = s.rateWritten := rfl
@[simp] theorem observe_draws (o : Obs) (s : State) : (observe o s).draws = s.draws := rfl
@[simp] theorem observe_host (o : Obs) (s : State) : (observe o s).host = s.host := rfl
@[simp] theorem observe_agenda (o : Obs) (s : State) : (observe o s).agenda = s.agenda := rfl
@[simp] theorem observe_log (o : Obs) (s : State) : (observe o s).log = o :: s.log := rfl

/-! ### `stepToggle` -/

@[simp] theorem stepToggle_stepPin (s : State) : (stepToggle s).stepPin = ~~~s.stepPin := rfl
@[simp] theorem stepToggle_dirPin (s : State) : (stepToggle s).dirPin = s.dirPin := rfl
@[simp] theorem stepToggle_oeN (s : State) : (stepToggle s).oeN = s.oeN := rfl
@[simp] theorem stepToggle_initState (s : State) : (stepToggle s).initState = s.initState := rfl
@[simp] theorem stepToggle_timerRun (s : State) : (stepToggle s).timerRun = s.timerRun := rfl
@[simp] theorem stepToggle_stepBudget (s : State) : (stepToggle s).stepBudget = s.stepBudget := rfl
@[simp] theorem stepToggle_rateDivisor (s : State) : (stepToggle s).rateDivisor = s.rateDivisor := rfl
@[simp] theorem stepToggle_stepsEmitted (s : State) : (stepToggle s).stepsEmitted = s.stepsEmitted := rfl
@[simp] theorem stepToggle_divisorCounter (s : State) : (stepToggle s).divisorCounter = s.divisorCounter := rfl
@[simp] theorem stepToggle_seqMode (s : State) : (stepToggle s).seqMode = s.seqMode := rfl
@[simp] theorem stepToggle_seqPhase (s : State) : (stepToggle s).seqPhase = s.seqPhase := rfl
@[simp] theorem stepToggle_seqRemaining (s : State) : (stepToggle s).seqRemaining = s.seqRemaining := rfl
@[simp] theorem stepToggle_seqDelay (s : State) : (stepToggle s).seqDelay = s.seqDelay := rfl
@[simp] theorem stepToggle_waitCnt (s : State) : (stepToggle s).waitCnt = s.waitCnt := rfl
@[simp] theorem stepToggle_trapIdx (s : State) : (stepToggle s).trapIdx = s.trapIdx := rfl
@[simp] theorem stepToggle_trapDelay (s : State) : (stepToggle s).trapDelay = s.trapDelay := rfl
@[simp] theorem stepToggle_trapPhase (s : State) : (stepToggle s).trapPhase = s.trapPhase := rfl
@[simp] theorem stepToggle_trapHalf (s : State) : (stepToggle s).trapHalf = s.trapHalf := rfl
@[simp] theorem stepToggle_rateWritten (s : State) : (stepToggle s).rateWritten = s.rateWritten := rfl
@[simp] theorem stepToggle_draws (s : State) : (stepToggle s).draws = s.draws := rfl
@[simp] theorem stepToggle_host (s : State) : (stepToggle s).host = s.host := rfl
@[simp] theorem stepToggle_agenda (s : State) : (stepToggle s).agenda = s.agenda := rfl
@[simp] theorem stepToggle_log (s : State) : (stepToggle s).log = logToggles 1 s.log := rfl

/-! ### `stepSet` -/

@[simp] theorem stepSet_stepPin (l : Level) (s : State) : (stepSet l s).stepPin = l := rfl
@[simp] theorem stepSet_dirPin (l : Level) (s : State) : (stepSet l s).dirPin = s.dirPin := rfl
@[simp] theorem stepSet_oeN (l : Level) (s : State) : (stepSet l s).oeN = s.oeN := rfl
@[simp] theorem stepSet_initState (l : Level) (s : State) : (stepSet l s).initState = s.initState := rfl
@[simp] theorem stepSet_timerRun (l : Level) (s : State) : (stepSet l s).timerRun = s.timerRun := rfl
@[simp] theorem stepSet_stepBudget (l : Level) (s : State) : (stepSet l s).stepBudget = s.stepBudget := rfl
@[simp] theorem stepSet_rateDivisor (l : Level) (s : State) : (stepSet l s).rateDivisor = s.rateDivisor := rfl
@[simp] theorem stepSet_stepsEmitted (l : Level) (s : State) : (stepSet l s).stepsEmitted = s.stepsEmitted := rfl
@[simp] theorem stepSet_divisorCounter (l : Level) (s : State) : (stepSet l s).divisorCounter = s.divisorCounter := rfl
@[simp] theorem stepSet_seqMode (l : Level) (s : State) : (stepSet l s).seqMode = s.seqMode := rfl
@[simp] theorem stepSet_seqPhase (l : Level) (s : State) : (stepSet l s).seqPhase = s.seqPhase := rfl
@[simp] theorem stepSet_seqRemaining (l : Level) (s : State) : (stepSet l s).seqRemaining = s.seqRemaining := rfl
@[simp] theorem stepSet_seqDelay (l : Level) (s : State) : (stepSet l s).seqDelay = s.seqDelay := rfl
@[simp] theorem stepSet_waitCnt (l : Level) (s : State) : (stepSet l s).waitCnt = s.waitCnt := rfl
@[simp] theorem stepSet_trapIdx (l : Level) (s : State) : (stepSet l s).trapIdx = s.trapIdx := rfl
@[simp] theorem stepSet_trapDelay (l : Level) (s : State) : (stepSet l s).trapDelay = s.trapDelay := rfl
@[simp] theorem stepSet_trapPhase (l : Level) (s : State) : (stepSet l s).trapPhase = s.trapPhase := rfl
@[simp] theorem stepSet_trapHalf (l : Level) (s : State) : (stepSet l s).trapHalf = s.trapHalf := rfl
@[simp] theorem stepSet_rateWritten (l : Level) (s : State) : (stepSet l s).rateWritten = s.rateWritten := rfl
@[simp] theorem stepSet_draws (l : Level) (s : State) : (stepSet l s).draws = s.draws := rfl
@[simp] theorem stepSet_host (l : Level) (s : State) : (stepSet l s).host = s.host := rfl
@[simp] theorem stepSet_agenda (l : Level) (s : State) : (stepSet l s).agenda = s.agenda := rfl
@[simp] theorem stepSet_log (l : Level) (s : State) : (stepSet l s).log = .stepSet l :: s.log := rfl

/-! ### `dirSet` -/

@[simp] theorem dirSet_stepPin (d : Direction) (s : State) : (dirSet d s).stepPin = s.stepPin := rfl
@[simp] theorem dirSet_dirPin (d : Direction) (s : State) : (dirSet d s).dirPin = dirLevel d := rfl
@[simp] theorem dirSet_oeN (d : Direction) (s : State) : (dirSet d s).oeN = s.oeN := rfl
@[simp] theorem dirSet_initState (d : Direction) (s : State) : (dirSet d s).initState = s.initState := rfl
@[simp] theorem dirSet_timerRun (d : Direction) (s : State) : (dirSet d s).timerRun = s.timerRun := rfl
@[simp] theorem dirSet_stepBudget (d : Direction) (s : State) : (dirSet d s).stepBudget = s.stepBudget := rfl
@[simp] theorem dirSet_rateDivisor (d : Direction) (s : State) : (dirSet d s).rateDivisor = s.rateDivisor := rfl
@[simp] theorem dirSet_stepsEmitted (d : Direction) (s : State) : (dirSet d s).stepsEmitted = s.stepsEmitted := rfl
@[simp] theorem dirSet_divisorCounter (d : Direction) (s : State) : (dirSet d s).divisorCounter = s.divisorCounter := rfl
@[simp] theorem dirSet_seqMode (d : Direction) (s : State) : (dirSet d s).seqMode = s.seqMode := rfl
@[simp] theorem dirSet_seqPhase (d : Direction) (s : State) : (dirSet d s).seqPhase = s.seqPhase := rfl
@[simp] theorem dirSet_seqRemaining (d : Direction) (s : State) : (dirSet d s).seqRemaining = s.seqRemaining := rfl
@[simp] theorem dirSet_seqDelay (d : Direction) (s : State) : (dirSet d s).seqDelay = s.seqDelay := rfl
@[simp] theorem dirSet_waitCnt (d : Direction) (s : State) : (dirSet d s).waitCnt = s.waitCnt := rfl
@[simp] theorem dirSet_trapIdx (d : Direction) (s : State) : (dirSet d s).trapIdx = s.trapIdx := rfl
@[simp] theorem dirSet_trapDelay (d : Direction) (s : State) : (dirSet d s).trapDelay = s.trapDelay := rfl
@[simp] theorem dirSet_trapPhase (d : Direction) (s : State) : (dirSet d s).trapPhase = s.trapPhase := rfl
@[simp] theorem dirSet_trapHalf (d : Direction) (s : State) : (dirSet d s).trapHalf = s.trapHalf := rfl
@[simp] theorem dirSet_rateWritten (d : Direction) (s : State) : (dirSet d s).rateWritten = s.rateWritten := rfl
@[simp] theorem dirSet_draws (d : Direction) (s : State) : (dirSet d s).draws = s.draws := rfl
@[simp] theorem dirSet_host (d : Direction) (s : State) : (dirSet d s).host = s.host := rfl
@[simp] theorem dirSet_agenda (d : Direction) (s : State) : (dirSet d s).agenda = s.agenda := rfl
@[simp] theorem dirSet_log (d : Direction) (s : State) : (dirSet d s).log = .dirSet (dirLevel d) :: s.log := rfl

/-! ### `oeWrite` -/

@[simp] theorem oeWrite_stepPin (l : Level) (s : State) : (oeWrite l s).stepPin = s.stepPin := rfl
@[simp] theorem oeWrite_dirPin (l : Level) (s : State) : (oeWrite l s).dirPin = s.dirPin := rfl
@[simp] theorem oeWrite_oeN (l : Level) (s : State) : (oeWrite l s).oeN = l := rfl
@[simp] theorem oeWrite_initState (l : Level) (s : State) : (oeWrite l s).initState = s.initState := rfl
@[simp] theorem oeWrite_timerRun (l : Level) (s : State) : (oeWrite l s).timerRun = s.timerRun := rfl
@[simp] theorem oeWrite_stepBudget (l : Level) (s : State) : (oeWrite l s).stepBudget = s.stepBudget := rfl
@[simp] theorem oeWrite_rateDivisor (l : Level) (s : State) : (oeWrite l s).rateDivisor = s.rateDivisor := rfl
@[simp] theorem oeWrite_stepsEmitted (l : Level) (s : State) : (oeWrite l s).stepsEmitted = s.stepsEmitted := rfl
@[simp] theorem oeWrite_divisorCounter (l : Level) (s : State) : (oeWrite l s).divisorCounter = s.divisorCounter := rfl
@[simp] theorem oeWrite_seqMode (l : Level) (s : State) : (oeWrite l s).seqMode = s.seqMode := rfl
@[simp] theorem oeWrite_seqPhase (l : Level) (s : State) : (oeWrite l s).seqPhase = s.seqPhase := rfl
@[simp] theorem oeWrite_seqRemaining (l : Level) (s : State) : (oeWrite l s).seqRemaining = s.seqRemaining := rfl
@[simp] theorem oeWrite_seqDelay (l : Level) (s : State) : (oeWrite l s).seqDelay = s.seqDelay := rfl
@[simp] theorem oeWrite_waitCnt (l : Level) (s : State) : (oeWrite l s).waitCnt = s.waitCnt := rfl
@[simp] theorem oeWrite_trapIdx (l : Level) (s : State) : (oeWrite l s).trapIdx = s.trapIdx := rfl
@[simp] theorem oeWrite_trapDelay (l : Level) (s : State) : (oeWrite l s).trapDelay = s.trapDelay := rfl
@[simp] theorem oeWrite_trapPhase (l : Level) (s : State) : (oeWrite l s).trapPhase = s.trapPhase := rfl
@[simp] theorem oeWrite_trapHalf (l : Level) (s : State) : (oeWrite l s).trapHalf = s.trapHalf := rfl
@[simp] theorem oeWrite_rateWritten (l : Level) (s : State) : (oeWrite l s).rateWritten = s.rateWritten := rfl
@[simp] theorem oeWrite_draws (l : Level) (s : State) : (oeWrite l s).draws = s.draws := rfl
@[simp] theorem oeWrite_host (l : Level) (s : State) : (oeWrite l s).host = s.host := rfl
@[simp] theorem oeWrite_agenda (l : Level) (s : State) : (oeWrite l s).agenda = s.agenda := rfl
@[simp] theorem oeWrite_log (l : Level) (s : State) : (oeWrite l s).log = .oeWrite l :: s.log := rfl

/-! ### `respond` -/

@[simp] theorem respond_stepPin (r : Response) (s : State) : (respond r s).stepPin = s.stepPin := rfl
@[simp] theorem respond_dirPin (r : Response) (s : State) : (respond r s).dirPin = s.dirPin := rfl
@[simp] theorem respond_oeN (r : Response) (s : State) : (respond r s).oeN = s.oeN := rfl
@[simp] theorem respond_initState (r : Response) (s : State) : (respond r s).initState = s.initState := rfl
@[simp] theorem respond_timerRun (r : Response) (s : State) : (respond r s).timerRun = s.timerRun := rfl
@[simp] theorem respond_stepBudget (r : Response) (s : State) : (respond r s).stepBudget = s.stepBudget := rfl
@[simp] theorem respond_rateDivisor (r : Response) (s : State) : (respond r s).rateDivisor = s.rateDivisor := rfl
@[simp] theorem respond_stepsEmitted (r : Response) (s : State) : (respond r s).stepsEmitted = s.stepsEmitted := rfl
@[simp] theorem respond_divisorCounter (r : Response) (s : State) : (respond r s).divisorCounter = s.divisorCounter := rfl
@[simp] theorem respond_seqMode (r : Response) (s : State) : (respond r s).seqMode = s.seqMode := rfl
@[simp] theorem respond_seqPhase (r : Response) (s : State) : (respond r s).seqPhase = s.seqPhase := rfl
@[simp] theorem respond_seqRemaining (r : Response) (s : State) : (respond r s).seqRemaining = s.seqRemaining := rfl
@[simp] theorem respond_seqDelay (r : Response) (s : State) : (respond r s).seqDelay = s.seqDelay := rfl
@[simp] theorem respond_waitCnt (r : Response) (s : State) : (respond r s).waitCnt = s.waitCnt := rfl
@[simp] theorem respond_trapIdx (r : Response) (s : State) : (respond r s).trapIdx = s.trapIdx := rfl
@[simp] theorem respond_trapDelay (r : Response) (s : State) : (respond r s).trapDelay = s.trapDelay := rfl
@[simp] theorem respond_trapPhase (r : Response) (s : State) : (respond r s).trapPhase = s.trapPhase := rfl
@[simp] theorem respond_trapHalf (r : Response) (s : State) : (respond r s).trapHalf = s.trapHalf := rfl
@[simp] theorem respond_rateWritten (r : Response) (s : State) : (respond r s).rateWritten = s.rateWritten := rfl
@[simp] theorem respond_draws (r : Response) (s : State) : (respond r s).draws = s.draws := rfl
@[simp] theorem respond_host (r : Response) (s : State) : (respond r s).host = s.host := rfl
@[simp] theorem respond_agenda (r : Response) (s : State) : (respond r s).agenda = s.agenda := rfl
@[simp] theorem respond_log (r : Response) (s : State) : (respond r s).log = .response r :: s.log := rfl

end Sys2Proof.Machine
end

