-- ==== Sys2Proof/Laws/Ops.lean ====
section
/-! SUPPORT. What the shared operations can do: the common checks, the gate, the conditions of a state. -/

namespace Sys2Proof.Machine

variable {o : Opcode} {needsReady gated : Bool} {broken : Option Refusal} {argc : BitVec 2} {s t : State}
  {effect : StepOutcome}

/-- Everything the common checks can answer (40_port_and_gate.md R109), one case per step. -/
theorem checked_cases :
    (argc = 3#2 ∧ checked o needsReady broken gated argc s effect = .refused (.illegalWord .reservedArgc)) ∨
    (argc ≠ 3#2 ∧ argc.toNat < o.argsRequired ∧
      checked o needsReady broken gated argc s effect = .next (respond .missingArgument s)) ∨
    (argc ≠ 3#2 ∧ o.argsRequired ≤ argc.toNat ∧ needsReady = true ∧ ready s = false ∧
      checked o needsReady broken gated argc s effect = .refused .notInitialised) ∨
    (∃ r, argc ≠ 3#2 ∧ o.argsRequired ≤ argc.toNat ∧ (needsReady = true → ready s = true) ∧ broken = some r ∧
      checked o needsReady broken gated argc s effect = .refused r) ∨
    (argc ≠ 3#2 ∧ o.argsRequired ≤ argc.toNat ∧ (needsReady = true → ready s = true) ∧ broken = none ∧
      gated = true ∧ isEnabled s = false ∧
      checked o needsReady broken gated argc s effect = .next (respond .driverDisabled s)) ∨
    (argc ≠ 3#2 ∧ o.argsRequired ≤ argc.toNat ∧ (needsReady = true → ready s = true) ∧ broken = none ∧
      (gated = true → isEnabled s = true) ∧ checked o needsReady broken gated argc s effect = effect) := by
  by_cases h₁ : argc = 3#2
  · exact .inl ⟨h₁, by simp [checked, h₁]⟩
  by_cases h₂ : argc.toNat < o.argsRequired
  · exact .inr (.inl ⟨h₁, h₂, by simp [checked, h₁, h₂, raise, conditionResponse]⟩)
  have h₂' := Nat.not_lt.mp h₂
  by_cases h₃ : needsReady = true ∧ ready s = false
  · exact .inr (.inr (.inl ⟨h₁, h₂', h₃.1, h₃.2, by simp [checked, h₁, h₂, h₃]⟩))
  have h₃' : needsReady = true → ready s = true := fun h => by simpa [h] using h₃
  have h₃'' : (needsReady && !ready s) = false := by
    cases needsReady <;> simp_all
  cases broken with
  | some r => exact .inr (.inr (.inr (.inl ⟨r, h₁, h₂', h₃', rfl, by simp [checked, h₁, h₂, h₃'']⟩)))
  | none =>
    by_cases h₄ : gated = true ∧ isEnabled s = false
    · exact .inr (.inr (.inr (.inr (.inl ⟨h₁, h₂', h₃', rfl, h₄.1, h₄.2,
        by simp [checked, h₁, h₂, h₃'', h₄, raise, conditionResponse]⟩))))
    · have h₄' : gated = true → isEnabled s = true := fun h => by simpa [h] using h₄
      have h₄'' : (gated && !isEnabled s) = false := by cases gated <;> simp_all
      exact .inr (.inr (.inr (.inr (.inr ⟨h₁, h₂', h₃', rfl, h₄', by simp [checked, h₁, h₂, h₃'', h₄'']⟩))))

/-- A command that passes every check is its own effect. -/
theorem checked_effect (h₁ : argc ≠ 3#2) (h₂ : o.argsRequired ≤ argc.toNat) (h₃ : needsReady = true → ready s = true)
    (h₄ : gated = true → isEnabled s = true) : checked o needsReady none gated argc s effect = effect := by
  rcases checked_cases (o := o) (needsReady := needsReady) (broken := none) (gated := gated) (argc := argc) (s := s)
    (effect := effect) with h | h | h | h | h | h
  · exact absurd h.1 h₁
  · omega
  · simp [h₃ h.2.2.1] at h
  · simp at h
  · simp [h₄ h.2.2.2.2.1] at h
  · exact h.2.2.2.2.2

/-- If the common checks answer a next state, it is a report with no other change, or the command's own effect. -/
theorem checked_next (h : checked o needsReady broken gated argc s effect = .next t) :
    t = respond .missingArgument s ∨ t = respond .driverDisabled s ∨
    (effect = .next t ∧ argc ≠ 3#2 ∧ o.argsRequired ≤ argc.toNat ∧ (needsReady = true → ready s = true) ∧
      broken = none ∧ (gated = true → isEnabled s = true)) := by
  rcases checked_cases (o := o) (needsReady := needsReady) (broken := broken) (gated := gated) (argc := argc) (s := s)
    (effect := effect) with e | e | e | ⟨r, e⟩ | e | e
  · simp [e.2] at h
  · simp only [e.2.2, Host.Outcome.next.injEq] at h
    exact .inl h.symm
  · simp [e.2.2.2.2] at h
  · simp [e.2.2.2.2] at h
  · simp only [e.2.2.2.2.2.2, Host.Outcome.next.injEq] at h
    exact .inr (.inl h.symm)
  · rw [e.2.2.2.2.2] at h
    exact .inr (.inr ⟨h, e.1, e.2.1, e.2.2.1, e.2.2.2.1, e.2.2.2.2.1⟩)

@[simp] theorem isEnabled_eq_true : isEnabled s = true ↔ s.oeN = 0#1 := by simp [isEnabled]

@[simp] theorem ready_eq_true : ready s = true ↔ s.initState = .ready := by
  cases h : s.initState <;> simp [ready, h]

@[simp] theorem busy_eq_true : busy s = true ↔ s.seqMode ≠ .none := by
  cases h : s.seqMode <;> simp [busy, h]

@[simp] theorem busy_eq_false : busy s = false ↔ s.seqMode = .none := by
  cases h : s.seqMode <;> simp [busy, h]

@[simp] theorem oneDiscipline_eq_none : oneDiscipline s = none ↔ active s = false := by
  cases h : active s <;> simp [oneDiscipline, h]

@[simp] theorem notWhileArmed_eq_none : notWhileArmed s = none ↔ s.timerRun = false := by
  cases h : s.timerRun <;> simp [notWhileArmed, armed, h]

end Sys2Proof.Machine
end

