-- ==== Sys2Proof/Laws/Sequencer.lean ====
section
/-! SUPPORT. What a run to completion and a tick do, in each situation: nothing while idle or waiting, and at most two
sequencer steps while the delay is not 0. -/

namespace Sys2Proof.Machine

variable {s : State}

theorem seqRun_of_not_enabled (fuel : Nat) (h : seqEnabled s = false) : seqRun fuel s = s := by
  cases fuel <;> simp [seqRun, h]

theorem seqRun_succ (fuel : Nat) (h : seqEnabled s = true) : seqRun (fuel + 1) s = seqRun fuel (seqStep s) := by
  simp [seqRun, h]

theorem seqEnabled_idle (h : s.seqMode = .none) : seqEnabled s = false := by
  simp [seqEnabled, busy, h]

theorem seqEnabled_waiting (h₁ : s.seqPhase = .wait) (h₂ : s.waitCnt ≠ 0#32) : seqEnabled s = false := by
  simp [seqEnabled, h₁, h₂]

theorem seqEnabled_act (h₁ : s.seqMode ≠ .none) (h₂ : s.seqPhase = .act) : seqEnabled s = true := by
  have := busy_eq_true.mpr h₁
  simp [seqEnabled, h₂, this]

theorem seqEnabled_done (h₁ : s.seqMode ≠ .none) (h₂ : s.waitCnt = 0#32) : seqEnabled s = true := by
  have := busy_eq_true.mpr h₁
  simp [seqEnabled, h₂, this]

/-- Where no sequencer step is enabled, running to completion changes nothing. -/
theorem runToCompletion_of_not_enabled (h : seqEnabled s = false) : runToCompletion s = s := by
  simp [runToCompletion, h, seqRun_of_not_enabled]

/-- One sequencer step after which none is enabled. -/
theorem runToCompletion_one (hd : s.seqMode = .imm → s.seqDelay ≠ 0#32) (h₁ : seqEnabled s = true)
    (h₂ : seqEnabled (seqStep s) = false) : runToCompletion s = seqStep s := by
  have : ¬(s.seqMode = .imm ∧ s.seqDelay = 0#32) := fun h => hd h.1 h.2
  rw [runToCompletion, if_neg this, seqFuel, seqRun_succ 16383 h₁, seqRun_of_not_enabled _ h₂]

/-- Two sequencer steps after which none is enabled. -/
theorem runToCompletion_two (hd : s.seqMode = .imm → s.seqDelay ≠ 0#32) (h₁ : seqEnabled s = true)
    (h₂ : seqEnabled (seqStep s) = true) (h₃ : seqEnabled (seqStep (seqStep s)) = false) :
    runToCompletion s = seqStep (seqStep s) := by
  have : ¬(s.seqMode = .imm ∧ s.seqDelay = 0#32) := fun h => hd h.1 h.2
  rw [runToCompletion, if_neg this, seqFuel, seqRun_succ 16383 h₁, seqRun_succ 16382 h₂, seqRun_of_not_enabled _ h₃]

/-- A STEP with delay 0 runs to its end at once. -/
theorem runToCompletion_burst (hm : s.seqMode = .imm) (hd : s.seqDelay = 0#32) (h : seqEnabled s = true) :
    runToCompletion s = immBurst s := by
  simp [runToCompletion, hm, hd, h]

/-- IMM.ACT under its mode and phase. -/
theorem seqStep_immAct (hm : s.seqMode = .imm) (hp : s.seqPhase = .act) : seqStep s = immAct s := by
  simp [seqStep, hm, hp]

theorem seqStep_immWaitDone (hm : s.seqMode = .imm) (hp : s.seqPhase = .wait) : seqStep s = immWaitDone s := by
  simp [seqStep, hm, hp]

theorem seqStep_trapAct (hm : s.seqMode = .trap) (hp : s.seqPhase = .act) : seqStep s = trapAct s := by
  simp [seqStep, hm, hp]

theorem seqStep_trapWaitDone (hm : s.seqMode = .trap) (hp : s.seqPhase = .wait) : seqStep s = trapWaitDone s := by
  simp [seqStep, hm, hp]

/-- A STEP at a toggle, its delay at least 1: the toggle is made and its wait begins. -/
theorem runToCompletion_immAct (hm : s.seqMode = .imm) (hp : s.seqPhase = .act) (hd : s.seqDelay ≠ 0#32) :
    runToCompletion s = immAct s := by
  have h := seqStep_immAct hm hp
  rw [← h]
  refine runToCompletion_one (fun _ => hd) (seqEnabled_act (by simp [hm]) hp) ?_
  rw [h]
  exact seqEnabled_waiting rfl hd

/-- A STEP at the end of a wait, its delay at least 1: the operation ends, or the next toggle is made. -/
theorem runToCompletion_immWaitDone (hm : s.seqMode = .imm) (hp : s.seqPhase = .wait) (hw : s.waitCnt = 0#32)
    (hd : s.seqDelay ≠ 0#32) :
    runToCompletion s =
      if s.seqRemaining = 0#33 then respond .ok { s with seqMode := .none } else immAct { s with seqPhase := .act } := by
  have h₁ := seqStep_immWaitDone hm hp
  have he : seqEnabled s = true := seqEnabled_done (by simp [hm]) hw
  by_cases hr : s.seqRemaining = 0#33
  · have h₂ : seqStep s = respond .ok { s with seqMode := .none } := by simp [h₁, immWaitDone, hr]
    rw [runToCompletion_one (fun _ => hd) he (by rw [h₂]; exact seqEnabled_idle rfl), h₂, if_pos hr]
  · have h₂ : seqStep s = { s with seqPhase := .act } := by simp [h₁, immWaitDone, hr]
    have h₃ : seqStep (seqStep s) = immAct { s with seqPhase := .act } := by
      rw [h₂]; exact seqStep_immAct hm rfl
    rw [runToCompletion_two (fun _ => hd) he (by rw [h₂]; exact seqEnabled_act (by simp [hm]) rfl)
      (by rw [h₃]; exact seqEnabled_waiting rfl hd), h₃, if_neg hr]

/-- A profile at a pin write, the delay at least 1 after the adjustment: the write is made and its wait begins. -/
theorem runToCompletion_trapAct (hm : s.seqMode = .trap) (hp : s.seqPhase = .act) (hd : (trapAct s).waitCnt ≠ 0#32) :
    runToCompletion s = trapAct s := by
  have h := seqStep_trapAct hm hp
  rw [← h]
  refine runToCompletion_one (by simp [hm]) (seqEnabled_act (by simp [hm]) hp) ?_
  rw [h]
  refine seqEnabled_waiting ?_ hd
  unfold trapAct
  split <;> rfl

/-- A profile at the end of a low half: the pin is set high and the second wait begins. -/
theorem runToCompletion_trapLowDone (hm : s.seqMode = .trap) (hp : s.seqPhase = .wait) (hw : s.waitCnt = 0#32)
    (hh : s.trapHalf = .low) (hd : s.trapDelay ≠ 0#32) :
    runToCompletion s = trapWait (stepSet 1#1 { s with trapHalf := .high, seqPhase := .act }) := by
  have h₁ : seqStep s = { s with trapHalf := .high, seqPhase := .act } := by
    rw [seqStep_trapWaitDone hm hp]; simp [trapWaitDone, hh]
  have h₂ : seqStep (seqStep s) = trapWait (stepSet 1#1 { s with trapHalf := .high, seqPhase := .act }) := by
    rw [h₁]
    exact seqStep_trapAct (s := { s with trapHalf := .high, seqPhase := .act }) hm rfl
  rw [runToCompletion_two (by simp [hm]) (seqEnabled_done (by simp [hm]) hw)
    (by rw [h₁]; exact seqEnabled_act (by simp [hm]) rfl) (by rw [h₂]; exact seqEnabled_waiting rfl hd), h₂]

/-- A profile at the end of the last index: it ends and responds. -/
theorem runToCompletion_trapEnd (hm : s.seqMode = .trap) (hp : s.seqPhase = .wait) (hw : s.waitCnt = 0#32)
    (hh : s.trapHalf = .high) (hi : s.trapIdx.toNat + 1 = Config.trapTotal) : runToCompletion s = trapIndexDone s := by
  have h₁ : seqStep s = trapIndexDone s := by
    rw [seqStep_trapWaitDone hm hp]; simp [trapWaitDone, hh]
  rw [runToCompletion_one (by simp [hm]) (seqEnabled_done (by simp [hm]) hw), h₁]
  rw [h₁]
  refine seqEnabled_idle ?_
  simp only [trapIndexDone]
  rw [if_pos hi]
  rfl

/-- A profile at the end of any other index: the next index begins with its low half. -/
theorem runToCompletion_trapNext (hm : s.seqMode = .trap) (hp : s.seqPhase = .wait) (hw : s.waitCnt = 0#32)
    (hh : s.trapHalf = .high) (hi : s.trapIdx.toNat + 1 ≠ Config.trapTotal)
    (hd : (trapAdjust (trapIndexDone s)).trapDelay ≠ 0#32) :
    runToCompletion s = trapWait (stepSet 0#1 (trapAdjust (trapIndexDone s))) := by
  have h₁ : seqStep s = trapIndexDone s := by
    rw [seqStep_trapWaitDone hm hp]; simp [trapWaitDone, hh]
  have hm' : (trapIndexDone s).seqMode = .trap := by simp only [trapIndexDone, if_neg hi, hm]
  have hp' : (trapIndexDone s).seqPhase = .act := by simp only [trapIndexDone, if_neg hi]
  have hh' : (trapIndexDone s).trapHalf = .low := by simp only [trapIndexDone, if_neg hi]
  have h₂ : seqStep (seqStep s) = trapWait (stepSet 0#1 (trapAdjust (trapIndexDone s))) := by
    rw [h₁, seqStep_trapAct hm' hp', trapAct, hh']
  rw [runToCompletion_two (by simp [hm]) (seqEnabled_done (by simp [hm]) hw)
    (by rw [h₁]; exact seqEnabled_act (by simp [hm']) hp') (by rw [h₂]; exact seqEnabled_waiting rfl hd), h₂]

/-- A tick while idle is observed and changes no register (10_state.md R33). -/
theorem tuTick_idle (h : s.seqMode = .none) : tuTick s = observe .tuTick s := by
  have hc : countTick (observe .tuTick s) = observe .tuTick s := by simp [countTick, busy, h]
  rw [tuTick, hc]
  exact runToCompletion_of_not_enabled (seqEnabled_idle h)

/-- A tick of a wait that has more than one tick to go only counts (10_state.md R33). -/
theorem tuTick_waiting (hm : s.seqMode ≠ .none) (hp : s.seqPhase = .wait) (hw : 1 < s.waitCnt.toNat) :
    tuTick s = { observe .tuTick s with waitCnt := s.waitCnt - 1#32 } := by
  have hb := busy_eq_true.mpr hm
  have h0 : 0#32 < s.waitCnt := by simp [BitVec.lt_def]; omega
  have hb' : busy (observe .tuTick s) = true := hb
  have hc : countTick (observe .tuTick s) = { observe .tuTick s with waitCnt := s.waitCnt - 1#32 } := by
    simp [countTick, hb', hp, h0]
  rw [tuTick, hc]
  refine runToCompletion_of_not_enabled (seqEnabled_waiting hp fun h => ?_)
  have := congrArg BitVec.toNat h
  simp at this
  omega

/-- The tick that ends a wait brings `wait_cnt` to 0 and runs the sequencer. -/
theorem tuTick_last (hm : s.seqMode ≠ .none) (hp : s.seqPhase = .wait) (hw : s.waitCnt = 1#32) :
    tuTick s = runToCompletion { observe .tuTick s with waitCnt := 0#32 } := by
  have hb : busy (observe .tuTick s) = true := busy_eq_true.mpr hm
  have hc : countTick (observe .tuTick s) = { observe .tuTick s with waitCnt := 0#32 } := by
    simp [countTick, hb, hp, hw]
  rw [tuTick, hc]

end Sys2Proof.Machine
end

