-- ==== Sys2Proof/Laws/Events.lean ====
section
/-! SUPPORT. Inversion: what an accepted command, a host read and a whole step can have done when they answer a next
state. Later proofs start from these and never unfold `exec` or `step`. -/

namespace Sys2Proof.Machine

variable {s t : State}

/-- What the own effect of each command does, with the conditions under which it is reached. -/
def EffectOf (i : Instr) (s t : State) : Prop :=
  match i with
  | .init _ _ _ => s.timerRun = false ∧ t = bringUpDone (Config.bringUp s.draws) s
  | .enable _ state _ =>
    s.initState = .ready ∧ state.toNat ≤ 1 ∧ t = respond .ok (oeWrite (state.extractLsb' 0 1) s)
  | .step _ count delay =>
    s.initState = .ready ∧ active s = false ∧ s.oeN = 0#1 ∧ t = startStep count delay s
  | .stepTimer _ budget divisor =>
    s.initState = .ready ∧ s.oeN = 0#1 ∧ t = respond .ok (arm budget divisor s)
  | .stepTrapezoid _ _ _ =>
    s.initState = .ready ∧ active s = false ∧ s.oeN = 0#1 ∧
      t = runToCompletion (loadProfile (dirSet .clockwise s))
  | .timerStop _ _ _ => s.initState = .ready ∧ t = respond .ok { s with timerRun := false }

/-- If an accepted command answers a next state, it reported one of two conditions and changed nothing else, or it had
its own effect. -/
theorem exec_next {i : Instr} (h : exec i s = .next t) :
    t = respond .missingArgument s ∨ t = respond .driverDisabled s ∨
      (EffectOf i s t ∧ i.argc ≠ 3#2 ∧ i.opcode.argsRequired ≤ i.argc.toNat) := by
  cases i with
  | init argc a b =>
    change execInit argc a b s = _ at h
    unfold execInit at h
    rcases checked_next h with h | h | ⟨he, ha, hr, hi, hb, hg⟩
    · exact .inl h
    · exact .inr (.inl h)
    · exact .inr (.inr ⟨⟨notWhileArmed_eq_none.mp hb, by simpa using he.symm⟩, ha, hr⟩)
  | enable argc a b =>
    change execEnable argc a b s = _ at h
    unfold execEnable at h
    rcases checked_next h with h | h | ⟨he, ha, hr, hi, hb, hg⟩
    · exact .inl h
    · exact .inr (.inl h)
    · refine .inr (.inr ⟨?_, ha, hr⟩)
      split at he
      · next hs => exact ⟨ready_eq_true.mp (hi rfl), hs, by simpa using he.symm⟩
      · cases he
  | step argc a b =>
    change execStep argc a b s = _ at h
    unfold execStep at h
    rcases checked_next h with h | h | ⟨he, ha, hr, hi, hb, hg⟩
    · exact .inl h
    · exact .inr (.inl h)
    · exact .inr (.inr ⟨⟨ready_eq_true.mp (hi rfl), oneDiscipline_eq_none.mp hb, isEnabled_eq_true.mp (hg rfl),
        by simpa using he.symm⟩, ha, hr⟩)
  | stepTimer argc a b =>
    change execStepTimer argc a b s = _ at h
    unfold execStepTimer at h
    rcases checked_next h with h | h | ⟨he, ha, hr, hi, hb, hg⟩
    · exact .inl h
    · exact .inr (.inl h)
    · exact .inr (.inr ⟨⟨ready_eq_true.mp (hi rfl), isEnabled_eq_true.mp (hg rfl), by simpa using he.symm⟩, ha, hr⟩)
  | stepTrapezoid argc a b =>
    change execStepTrapezoid argc a b s = _ at h
    unfold execStepTrapezoid at h
    rcases checked_next h with h | h | ⟨he, ha, hr, hi, hb, hg⟩
    · exact .inl h
    · exact .inr (.inl h)
    · exact .inr (.inr ⟨⟨ready_eq_true.mp (hi rfl), oneDiscipline_eq_none.mp hb, isEnabled_eq_true.mp (hg rfl),
        by simpa using he.symm⟩, ha, hr⟩)
  | timerStop argc a b =>
    change execTimerStop argc a b s = _ at h
    unfold execTimerStop at h
    rcases checked_next h with h | h | ⟨he, ha, hr, hi, hb, hg⟩
    · exact .inl h
    · exact .inr (.inl h)
    · exact .inr (.inr ⟨⟨ready_eq_true.mp (hi rfl), by simpa using he.symm⟩, ha, hr⟩)

/-- If a host read answers a next state, only the observation and the count of draws have changed. -/
theorem regRead_next {n : Nat} (h : regRead n s = .next t) :
    ∃ v k, n ≤ 4 ∧ t = { s with log := .readValue n v :: s.log, draws := k } := by
  unfold regRead at h
  split at h
  · cases h
  · next v hv =>
    have hn : n ≤ 4 := by
      unfold regContent at hv
      split at hv <;> simp_all
    split at h
    · exact ⟨_, _, hn, by simpa using h.symm⟩
    · exact ⟨v, s.draws, hn, (Host.Outcome.next.inj h).symm⟩

/-- Everything a step can do when it answers a next state: no event; a reset; a tick; a turn of the timer; a host turn
that passes; the acceptance of a command; a host read. -/
theorem step_cases (h : step s = .next t) :
    (s.agenda = [] ∧ t = s) ∨
    (∃ rest, s.agenda = .reset :: rest ∧ t = resetEvent { s with agenda := rest }) ∨
    (∃ rest, s.agenda = .tuTick :: rest ∧ t = tuTick { s with agenda := rest }) ∨
    (∃ rest, s.agenda = .fire :: rest ∧ t = fireTurn { s with agenda := rest }) ∨
    (∃ rest, s.agenda = .host :: rest ∧ (busy s = true ∨ s.host = []) ∧ t = { s with agenda := rest }) ∨
    (∃ rest w q i, s.agenda = .host :: rest ∧ s.seqMode = .none ∧ s.host = .cmd w :: q ∧ decode w = .ok i ∧
      exec i { s with agenda := rest, host := q } = .next t) ∨
    (∃ rest n q, s.agenda = .host :: rest ∧ s.seqMode = .none ∧ s.host = .read n :: q ∧
      regRead n { s with agenda := rest, host := q } = .next t) := by
  unfold step nextEvent at h
  split at h
  · next ha => exact .inl ⟨ha, by simpa using h.symm⟩
  · next turn rest ha =>
    cases turn with
    | reset => exact .inr (.inl ⟨rest, ha, by simpa [takeTurn] using h.symm⟩)
    | tuTick => exact .inr (.inr (.inl ⟨rest, ha, by simpa [takeTurn] using h.symm⟩))
    | fire => exact .inr (.inr (.inr (.inl ⟨rest, ha, by simpa [takeTurn] using h.symm⟩)))
    | host =>
      refine .inr (.inr (.inr (.inr ?_)))
      simp only [takeTurn, hostTurn] at h
      split at h
      · next hb => exact .inl ⟨rest, ha, .inl hb, by simpa using h.symm⟩
      · next hb =>
        have hm : s.seqMode = .none := busy_eq_false.mp (Bool.eq_false_iff.mpr hb)
        split at h
        · next hh => exact .inl ⟨rest, ha, .inr hh, by simpa using h.symm⟩
        · next r q hh =>
          cases r with
          | read n => exact .inr (.inr ⟨rest, n, q, ha, hm, hh, h⟩)
          | cmd w =>
            simp only [takeRequest, acceptWord] at h
            split at h
            · cases h
            · next i hi => exact .inr (.inl ⟨rest, w, q, i, ha, hm, hh, hi, h⟩)

/-- A step on a turn is that turn. -/
theorem step_turn {turn : Turn} {rest : List Turn} (h : s.agenda = turn :: rest) :
    step s = takeTurn turn { s with agenda := rest } := by
  unfold step nextEvent
  split
  · next h' => rw [h] at h'; cases h'
  · next u r h' => rw [h] at h'; cases h'; rfl

/-- A step on a host turn with the port ready takes the request at the port. -/
theorem step_host {rest : List Turn} {r : Request} {q : List Request} (ha : s.agenda = .host :: rest)
    (hm : s.seqMode = .none) (hh : s.host = r :: q) :
    step s = takeRequest r { s with agenda := rest, host := q } := by
  rw [step_turn ha]
  have hb : busy { s with agenda := rest } = false := busy_eq_false.mpr hm
  simp only [takeTurn, hostTurn, hb, Bool.false_eq_true, if_false]
  split
  · next h' => simp [hh] at h'
  · next r' q' h' => rw [hh] at h'; cases h'; rfl

end Sys2Proof.Machine
end

