-- ==== Sys2Proof/Laws/Frames.lean ====
section
/-! SUPPORT. What the sequencer, the tick, the firing and the reports leave unchanged, said once for every register. -/

namespace Sys2Proof.Machine

variable {s t : State}

/-- Everything that no sequencer step writes: `dir_pin`, `oe_n`, `init_state`, `timer_run`, the RateProgram, the model's own
fields beside the log, and in the log the writes of the direction pin. -/
structure SeqFrame (s t : State) : Prop where
  dirPin : t.dirPin = s.dirPin
  oeN : t.oeN = s.oeN
  initState : t.initState = s.initState
  timerRun : t.timerRun = s.timerRun
  stepBudget : t.stepBudget = s.stepBudget
  rateDivisor : t.rateDivisor = s.rateDivisor
  stepsEmitted : t.stepsEmitted = s.stepsEmitted
  divisorCounter : t.divisorCounter = s.divisorCounter
  rateWritten : t.rateWritten = s.rateWritten
  draws : t.draws = s.draws
  host : t.host = s.host
  agenda : t.agenda = s.agenda
  dirSets : dirSetsIn t.log = dirSetsIn s.log

@[simp] theorem dirSetsIn_logToggles (n : Nat) (log : List Obs) : dirSetsIn (logToggles n log) = dirSetsIn log := by
  cases log with
  | nil => rfl
  | cons o rest => cases o <;> rfl

theorem SeqFrame.rfl (s : State) : SeqFrame s s := by constructor <;> exact Eq.refl _

theorem SeqFrame.trans {u : State} (h : SeqFrame s t) (h' : SeqFrame t u) : SeqFrame s u where
  dirPin := h'.dirPin.trans h.dirPin
  oeN := h'.oeN.trans h.oeN
  initState := h'.initState.trans h.initState
  timerRun := h'.timerRun.trans h.timerRun
  stepBudget := h'.stepBudget.trans h.stepBudget
  rateDivisor := h'.rateDivisor.trans h.rateDivisor
  stepsEmitted := h'.stepsEmitted.trans h.stepsEmitted
  divisorCounter := h'.divisorCounter.trans h.divisorCounter
  rateWritten := h'.rateWritten.trans h.rateWritten
  draws := h'.draws.trans h.draws
  host := h'.host.trans h.host
  agenda := h'.agenda.trans h.agenda
  dirSets := h'.dirSets.trans h.dirSets

theorem immAct_frame (s : State) : SeqFrame s (immAct s) := by constructor <;> simp [immAct]

theorem immWaitDone_frame (s : State) : SeqFrame s (immWaitDone s) := by
  unfold immWaitDone
  split <;> constructor <;> simp [dirSetsIn]

theorem trapAdjust_frame (s : State) : SeqFrame s (trapAdjust s) := by
  unfold trapAdjust
  split <;> constructor <;> rfl

theorem trapAct_frame (s : State) : SeqFrame s (trapAct s) := by
  unfold trapAct
  have h := trapAdjust_frame s
  split
  · exact h.trans (by constructor <;> simp [trapWait, dirSetsIn])
  · constructor <;> simp [trapWait, dirSetsIn]

theorem trapWaitDone_frame (s : State) : SeqFrame s (trapWaitDone s) := by
  unfold trapWaitDone trapIndexDone
  split
  · constructor <;> rfl
  · simp only
    split <;> constructor <;> simp [dirSetsIn]

theorem seqStep_frame (s : State) : SeqFrame s (seqStep s) := by
  unfold seqStep
  split
  · exact SeqFrame.rfl s
  · exact immAct_frame s
  · exact immWaitDone_frame s
  · exact trapAct_frame s
  · exact trapWaitDone_frame s

theorem seqRun_frame (fuel : Nat) (s : State) : SeqFrame s (seqRun fuel s) := by
  induction fuel generalizing s with
  | zero => exact SeqFrame.rfl s
  | succ n ih =>
    unfold seqRun
    split
    · exact (seqStep_frame s).trans (ih _)
    · exact SeqFrame.rfl s

theorem immBurst_frame (s : State) : SeqFrame s (immBurst s) := by
  unfold immBurst
  constructor <;> simp [dirSetsIn]
  split <;> simp

/-- A run to completion leaves everything of `SeqFrame`. -/
theorem runToCompletion_frame (s : State) : SeqFrame s (runToCompletion s) := by
  unfold runToCompletion
  split
  · split
    · exact immBurst_frame s
    · exact SeqFrame.rfl s
  · exact seqRun_frame _ s

/-- A tick leaves everything of `SeqFrame`. -/
theorem tuTick_frame (s : State) : SeqFrame s (tuTick s) := by
  refine SeqFrame.trans ?_ (runToCompletion_frame _)
  unfold countTick
  split <;> constructor <;> simp [dirSetsIn]

/-- What the sequencer leaves according to the mode it starts in: the delay of a STEP always, the mode or its end, the four
registers of the profile outside mode TRAP, the count of toggles outside mode IMM. -/
structure ModeFrame (s t : State) : Prop where
  seqDelay : t.seqDelay = s.seqDelay
  seqMode : t.seqMode = s.seqMode ∨ t.seqMode = .none
  profile : s.seqMode ≠ .trap →
    t.trapIdx = s.trapIdx ∧ t.trapDelay = s.trapDelay ∧ t.trapPhase = s.trapPhase ∧ t.trapHalf = s.trapHalf
  seqRemaining : s.seqMode ≠ .imm → t.seqRemaining = s.seqRemaining

theorem ModeFrame.rfl (s : State) : ModeFrame s s :=
  ⟨Eq.refl _, .inl (Eq.refl _), fun _ => ⟨Eq.refl _, Eq.refl _, Eq.refl _, Eq.refl _⟩, fun _ => Eq.refl _⟩

theorem ModeFrame.trans {u : State} (h : ModeFrame s t) (h' : ModeFrame t u) : ModeFrame s u where
  seqDelay := h'.seqDelay.trans h.seqDelay
  seqMode := by rcases h.seqMode with e | e <;> rcases h'.seqMode with e' | e' <;> simp [e, e']
  profile hm := by
    have ht : t.seqMode ≠ .trap := by rcases h.seqMode with e | e <;> simp [e, hm]
    obtain ⟨a, b, c, d⟩ := h.profile hm
    obtain ⟨a', b', c', d'⟩ := h'.profile ht
    exact ⟨a'.trans a, b'.trans b, c'.trans c, d'.trans d⟩
  seqRemaining hm := by
    have ht : t.seqMode ≠ .imm := by rcases h.seqMode with e | e <;> simp [e, hm]
    exact (h'.seqRemaining ht).trans (h.seqRemaining hm)

theorem seqStep_modeFrame (s : State) : ModeFrame s (seqStep s) := by
  unfold seqStep
  split
  · exact ModeFrame.rfl s
  · next hm hp => constructor <;> simp [immAct, hm]
  · next hm hp => unfold immWaitDone; split <;> constructor <;> simp [hm]
  · next hm hp =>
    unfold trapAct trapAdjust
    split
    · split <;> constructor <;> simp [trapWait, hm]
    · constructor <;> simp [trapWait, hm]
  · next hm hp =>
    unfold trapWaitDone trapIndexDone
    split
    · constructor <;> simp [hm]
    · simp only; split <;> constructor <;> simp [hm]

theorem seqRun_modeFrame (fuel : Nat) (s : State) : ModeFrame s (seqRun fuel s) := by
  induction fuel generalizing s with
  | zero => exact ModeFrame.rfl s
  | succ n ih =>
    unfold seqRun
    split
    · exact (seqStep_modeFrame s).trans (ih _)
    · exact ModeFrame.rfl s

/-- A run to completion leaves everything of `ModeFrame`. -/
theorem runToCompletion_modeFrame (s : State) : ModeFrame s (runToCompletion s) := by
  unfold runToCompletion
  split
  · next h =>
    split
    · constructor <;> simp [immBurst, h.1]
    · exact ModeFrame.rfl s
  · exact seqRun_modeFrame _ s

/-- A tick leaves everything of `ModeFrame`. -/
theorem tuTick_modeFrame (s : State) : ModeFrame s (tuTick s) := by
  refine ModeFrame.trans ?_ (runToCompletion_modeFrame _)
  unfold countTick
  split <;> constructor <;> simp

/-- Everything a firing leaves: the pins but the step pin, the control registers, the budget and the divisor, the
sequencer, the model's own fields beside the log. -/
structure FireFrame (s t : State) : Prop where
  dirPin : t.dirPin = s.dirPin
  oeN : t.oeN = s.oeN
  initState : t.initState = s.initState
  timerRun : t.timerRun = s.timerRun
  stepBudget : t.stepBudget = s.stepBudget
  rateDivisor : t.rateDivisor = s.rateDivisor
  sequencer : SameSequencer s t
  rateWritten : t.rateWritten = s.rateWritten
  draws : t.draws = s.draws
  host : t.host = s.host
  agenda : t.agenda = s.agenda

theorem fire_frame (s : State) : FireFrame s (fire s) := by
  unfold fire fireToggle fireDivide
  split <;> constructor <;> simp [SameSequencer]

/-- A firing of a generator that has toggles left, at the start of its divisor period. -/
theorem fire_toggles (h₁ : s.stepsEmitted < s.stepBudget) (h₂ : s.divisorCounter = 0#32) :
    fire s = { s with
      stepPin := ~~~s.stepPin
      stepsEmitted := s.stepsEmitted + 1#32
      divisorCounter := if s.divisorCounter + 1#32 = s.rateDivisor then 0#32 else s.divisorCounter + 1#32
      log := .stepToggle 1 :: .fire :: s.log } := by
  have : (observe .fire s).stepsEmitted < (observe .fire s).stepBudget ∧ (observe .fire s).divisorCounter = 0#32 :=
    ⟨h₁, h₂⟩
  simp only [fire, fireToggle, if_pos this]
  rfl

/-- Any other firing. -/
theorem fire_divides (h : ¬(s.stepsEmitted < s.stepBudget ∧ s.divisorCounter = 0#32)) :
    fire s = { s with
      divisorCounter := if s.divisorCounter + 1#32 = s.rateDivisor then 0#32 else s.divisorCounter + 1#32
      log := .fire :: s.log } := by
  have : ¬((observe .fire s).stepsEmitted < (observe .fire s).stepBudget ∧ (observe .fire s).divisorCounter = 0#32) := h
  simp only [fire, fireToggle, if_neg this]
  rfl

end Sys2Proof.Machine
end

