-- ==== Sys2Proof/Laws/PerInstr.lean ====
section
/-! SUPPORT. Statements made once per instruction. -/

namespace Sys2Proof.Laws.EncodedFields

/-- The word of a command holds each of its fields where 30_encoding.md R80 puts it, with the opcode of R82 and the reserved
bits 0. -/
def Statement (i : Instr) : Prop :=
  CommandWord.op (encode i) = i.opcode.code ∧ CommandWord.rsv (encode i) = 0#2 ∧
    CommandWord.argc (encode i) = i.argc ∧ CommandWord.arg0 (encode i) = i.arg0 ∧ CommandWord.arg1 (encode i) = i.arg1

theorem init (argc : BitVec 2) (arg0 arg1 : Word) : Statement (.init argc arg0 arg1) := word_fields _ _ _ _ _

theorem enable (argc : BitVec 2) (state arg1 : Word) : Statement (.enable argc state arg1) := word_fields _ _ _ _ _

theorem step (argc : BitVec 2) (count delay : Word) : Statement (.step argc count delay) := word_fields _ _ _ _ _

theorem stepTimer (argc : BitVec 2) (budget divisor : Word) : Statement (.stepTimer argc budget divisor) :=
  word_fields _ _ _ _ _

theorem stepTrapezoid (argc : BitVec 2) (arg0 arg1 : Word) : Statement (.stepTrapezoid argc arg0 arg1) :=
  word_fields _ _ _ _ _

theorem timerStop (argc : BitVec 2) (arg0 arg1 : Word) : Statement (.timerStop argc arg0 arg1) := word_fields _ _ _ _ _

end Sys2Proof.Laws.EncodedFields
end

