-- ==== Sys2Proof/Laws/Profile.lean ====
section
/-! SUPPORT. Facts about the closed form of the profile: its bounds, how it moves from one index to the next, and its
total length. -/

namespace Sys2Proof.Machine

/-- `d(i)` with the numbers of 43_trapezoidal_profiler.md R171. -/
theorem profileDelay_eq (i : Nat) :
    profileDelay i = if i < 200 then 10 - i / 20 else if i < 3000 then 1 else 2 + (i - 3000) / 20 := rfl

theorem profilePhase_eq (i : Nat) :
    profilePhase i = if i < 200 then i % 20 else if i < 3000 then 20 else (i - 3000) % 20 := rfl

theorem profileDelay_pos (i : Nat) (h : i < 3200) : 1 ≤ profileDelay i ∧ profileDelay i ≤ 11 := by
  rw [profileDelay_eq]
  split_ifs <;> omega

/-- The phase counter at the end of index `i` (43_trapezoidal_profiler.md R172). -/
def profilePhaseEnd (i : Nat) : Nat :=
  if i < 200 ∨ 3000 ≤ i then profilePhase i + 1 else profilePhase i

/-- Where the cadence is full in a ramp zone, the delay moves by one and the phase counter is cleared. -/
theorem profile_moves (i : Nat) (h : i + 1 < 3200)
    (hz : i + 1 < 200 ∨ 3000 ≤ i + 1) (hp : profilePhaseEnd i = 20) :
    profileDelay (i + 1) = (if i + 1 < 200 then profileDelay i - 1 else profileDelay i + 1) ∧
      profilePhase (i + 1) = 0 := by
  unfold profilePhaseEnd at hp
  rw [profilePhase_eq] at hp
  rw [profileDelay_eq, profileDelay_eq, profilePhase_eq]
  by_cases h1 : i + 1 < 200
  · have h2 : i < 200 := by omega
    simp only [if_pos h1, if_pos h2, if_pos (Or.inl h2 : i < 200 ∨ 3000 ≤ i)] at *
    omega
  · have h2 : ¬i < 200 := by omega
    have h3 : ¬i + 1 < 3000 := by omega
    simp only [if_neg h1, h2, false_or] at *
    split_ifs at * <;> omega

/-- Everywhere else the delay stays and the phase counter is what the index before left. -/
theorem profile_stays (i : Nat) (h : i + 1 < 3200)
    (hn : ¬((i + 1 < 200 ∨ 3000 ≤ i + 1) ∧ profilePhaseEnd i = 20)) :
    profileDelay (i + 1) = profileDelay i ∧ profilePhase (i + 1) = profilePhaseEnd i := by
  rw [not_and_or] at hn
  rw [profileDelay_eq, profileDelay_eq, profilePhase_eq]
  unfold profilePhaseEnd at *
  rw [profilePhase_eq] at *
  by_cases h1 : i + 1 < 200
  · have h2 : i < 200 := by omega
    simp only [if_pos h1, if_pos h2, if_pos (Or.inl h2 : i < 200 ∨ 3000 ≤ i)] at *
    omega
  by_cases h2 : i + 1 < 3000
  · have h3 : i < 3000 := by omega
    have h4 : ¬3000 ≤ i := by omega
    simp only [if_neg h1, if_pos h2, if_pos h3, h4, or_false]
    split_ifs <;> omega
  · have h3 : ¬i < 200 := by omega
    simp only [if_neg h1, if_neg h2, h3, false_or] at *
    split_ifs at * <;> omega

theorem profilePhase_le (i : Nat) : profilePhase i ≤ 20 ∧ (i < 200 ∨ 3000 ≤ i → profilePhase i < 20) := by
  rw [profilePhase_eq]
  split_ifs <;> omega

theorem profileStart_mono {i j : Nat} (h : i ≤ j) : profileStart i ≤ profileStart j := by
  induction h with
  | refl => exact Nat.le_refl _
  | step _ ih => exact Nat.le_trans ih (Nat.le_add_right _ _)

end Sys2Proof.Machine
end

