-- ==== Sys2Proof/Laws/Ticks.lean ====
section
/-! SUPPORT. What a tick does while a blocking command is in progress, from a state of the invariant, said once. -/

namespace Sys2Proof.Machine

variable {s t : State}

theorem inRampZone_eq (i : BitVec 12) : inRampZone i = decide (i.toNat < 200 ∨ 3000 ≤ i.toNat) := by
  rw [Bool.decide_or]; rfl

theorem inAccelZone_eq (i : BitVec 12) : inAccelZone i = decide (i.toNat < 200) := rfl

/-- One index to the next: the index, the delay and the phase counter of the profile move together. -/
theorem trapAdjust_indexDone (hi : s.trapIdx.toNat + 1 < 3200) (hd : s.trapDelay.toNat = profileDelay s.trapIdx.toNat)
    (hp : s.trapPhase.toNat = profilePhase s.trapIdx.toNat) :
    ∃ d p, trapAdjust (trapIndexDone s) =
        { s with trapIdx := s.trapIdx + 1#12, trapDelay := d, trapPhase := p, trapHalf := .low, seqPhase := .act } ∧
      (s.trapIdx + 1#12).toNat = s.trapIdx.toNat + 1 ∧
      d.toNat = profileDelay (s.trapIdx.toNat + 1) ∧ p.toNat = profilePhase (s.trapIdx.toNat + 1) := by
  have hidx : (s.trapIdx + 1#12).toNat = s.trapIdx.toNat + 1 := by
    simp [BitVec.toNat_add]; omega
  have hne : s.trapIdx.toNat + 1 ≠ Config.trapTotal := by rw [show Config.trapTotal = 3200 from rfl]; omega
  have hb := profilePhase_le s.trapIdx.toNat
  have hdb := profileDelay_pos s.trapIdx.toNat (by omega)
  have hr := inRampZone_eq s.trapIdx
  have hr' := inRampZone_eq (s.trapIdx + 1#12)
  have ha' := inAccelZone_eq (s.trapIdx + 1#12)
  rw [hidx] at hr' ha'
  -- the phase counter at the end of the index
  have hpe : (if inRampZone s.trapIdx then s.trapPhase + 1#5 else s.trapPhase).toNat
      = profilePhaseEnd s.trapIdx.toNat := by
    rw [hr]; unfold profilePhaseEnd
    split_ifs with h1 h2 h2
    · have := hb.2 h2
      simp [BitVec.toNat_add]; omega
    · simp at h1; omega
    · simp at h1; omega
    · exact hp
  generalize hq : (if inRampZone s.trapIdx then s.trapPhase + 1#5 else s.trapPhase) = q at hpe
  have hdone : trapIndexDone s =
      { s with trapPhase := q, trapHalf := .low, trapIdx := s.trapIdx + 1#12, seqPhase := .act } := by
    simp only [trapIndexDone, if_neg hne, hq]
  rw [hdone]
  by_cases hc : (s.trapIdx.toNat + 1 < 200 ∨ 3000 ≤ s.trapIdx.toNat + 1) ∧ q.toNat = 20
  · have hm := profile_moves s.trapIdx.toNat hi hc.1 (by omega)
    refine ⟨if s.trapIdx.toNat + 1 < 200 then s.trapDelay - 1#32 else s.trapDelay + 1#32, 0#5, ?_, hidx, ?_, ?_⟩
    · have : (inRampZone (s.trapIdx + 1#12) && q.toNat == Config.trapCadence) = true := by
        rw [hr', hc.2, decide_eq_true hc.1]; rfl
      simp only [trapAdjust, this, ha', if_true, decide_eq_true_eq]
    · rw [hm.1]
      split_ifs
      · rw [BitVec.toNat_sub_of_le (by simp [BitVec.le_def]; omega)]; simp; omega
      · simp [BitVec.toNat_add]; omega
    · rw [hm.2]; rfl
  · have hm := profile_stays s.trapIdx.toNat hi (by rwa [hpe] at hc)
    refine ⟨s.trapDelay, q, ?_, hidx, ?_, ?_⟩
    · have : ¬(inRampZone (s.trapIdx + 1#12) && q.toNat == Config.trapCadence) = true := by
        rw [hr', Bool.and_eq_true, decide_eq_true_eq, beq_iff_eq]; exact hc
      simp only [trapAdjust, if_neg this]
    · rw [hm.1, hd]
    · rw [hm.2, hpe]

/-- Everything a tick can do while a blocking command is in progress, from a state of the invariant: it only counts, or it
ends a wait, and then STEP ends or makes its next toggle, and the profile goes to its high half, ends, or begins its next index. -/
theorem tuTick_cases (h : RunInv s) (hm : s.seqMode ≠ .none) :
    (1 < s.waitCnt.toNat ∧ tuTick s = { s with waitCnt := s.waitCnt - 1#32, log := .tuTick :: s.log }) ∨
    (s.waitCnt = 1#32 ∧ s.seqMode = .imm ∧ s.seqRemaining = 0#33 ∧
      tuTick s = { s with waitCnt := 0#32, seqMode := .none, log := .response .ok :: .tuTick :: s.log }) ∨
    (s.waitCnt = 1#32 ∧ s.seqMode = .imm ∧ s.seqRemaining ≠ 0#33 ∧
      tuTick s = { s with stepPin := ~~~s.stepPin, seqRemaining := s.seqRemaining - 1#33, waitCnt := s.seqDelay,
                          log := .stepToggle 1 :: .tuTick :: s.log }) ∨
    (s.waitCnt = 1#32 ∧ s.seqMode = .trap ∧ s.trapHalf = .low ∧
      tuTick s = { s with stepPin := 1#1, trapHalf := .high, waitCnt := s.trapDelay,
                          log := .stepSet 1#1 :: .tuTick :: s.log }) ∨
    (s.waitCnt = 1#32 ∧ s.seqMode = .trap ∧ s.trapHalf = .high ∧ s.trapIdx.toNat = 3199 ∧
      tuTick s = { s with waitCnt := 0#32, trapPhase := s.trapPhase + 1#5, trapHalf := .low, trapIdx := 3200#12,
                          seqMode := .none, log := .response .ok :: .tuTick :: s.log }) ∨
    (s.waitCnt = 1#32 ∧ s.seqMode = .trap ∧ s.trapHalf = .high ∧ s.trapIdx.toNat < 3199 ∧
      ∃ j d p, tuTick s = { s with stepPin := 0#1, trapIdx := j, trapDelay := d, trapPhase := p, trapHalf := .low,
                                   waitCnt := d, log := .stepSet 0#1 :: .tuTick :: s.log } ∧
        j.toNat = s.trapIdx.toNat + 1 ∧ d.toNat = profileDelay (s.trapIdx.toNat + 1) ∧
        p.toNat = profilePhase (s.trapIdx.toNat + 1)) := by
  obtain ⟨-, hbusy, himm, htrap⟩ := h
  obtain ⟨hp, hw0, -⟩ := hbusy (busy_eq_true.mpr hm)
  by_cases hw : 1 < s.waitCnt.toNat
  · exact .inl ⟨hw, tuTick_waiting hm hp hw⟩
  have hw1 : s.waitCnt = 1#32 := BitVec.eq_of_toNat_eq (by simp; omega)
  right
  rw [tuTick_last hm hp hw1]
  cases hmode : s.seqMode with
  | none => exact absurd hmode hm
  | imm =>
    obtain ⟨hr, hwd⟩ := himm hmode
    have hd : s.seqDelay ≠ 0#32 := fun h0 => by
      rw [h0, BitVec.le_def] at hwd; simp at hwd; omega
    rw [runToCompletion_immWaitDone (s := { observe .tuTick s with waitCnt := 0#32 }) hmode hp rfl hd]
    by_cases hrem : s.seqRemaining = 0#33
    · refine .inl ⟨hw1, rfl, hrem, ?_⟩
      rw [if_pos (by exact hrem)]
      rfl
    · refine .inr (.inl ⟨hw1, rfl, hrem, ?_⟩)
      rw [if_neg (by exact hrem)]
      simp [immAct, stepToggle, observe, logToggles, hmode, hp]
  | trap =>
    obtain ⟨hi, hd, hph, hwd, hpin⟩ := htrap hmode
    rw [show Config.trapTotal = 3200 from rfl] at hi
    have hdp := profileDelay_pos _ hi
    have hd0 : s.trapDelay ≠ 0#32 := fun h0 => by
      rw [h0] at hd; simp at hd; omega
    right; right
    cases hh : s.trapHalf with
    | low =>
      refine .inl ⟨hw1, rfl, rfl, ?_⟩
      rw [runToCompletion_trapLowDone (s := { observe .tuTick s with waitCnt := 0#32 }) hmode hp rfl hh hd0]
      simp [trapWait, stepSet, observe, hmode, hp]
    | high =>
      right
      by_cases hlast : s.trapIdx.toNat = 3199
      · refine .inl ⟨hw1, rfl, rfl, hlast, ?_⟩
        rw [runToCompletion_trapEnd (s := { observe .tuTick s with waitCnt := 0#32 }) hmode hp rfl hh
          (by show s.trapIdx.toNat + 1 = 3200; omega)]
        have hr : inRampZone s.trapIdx = true := by rw [inRampZone_eq]; simp; omega
        have hx : s.trapIdx = 3199#12 := BitVec.eq_of_toNat_eq (by simp [hlast])
        have hl : s.trapIdx.toNat + 1 = Config.trapTotal := by rw [hlast]; rfl
        simp only [trapIndexDone, observe, hr, if_true, if_pos hl, respond]
        simp [hx]
      · refine .inr ⟨hw1, rfl, rfl, by omega, ?_⟩
        obtain ⟨d, p, he, hj, hd', hp'⟩ := trapAdjust_indexDone
          (s := { observe .tuTick s with waitCnt := 0#32 }) (by show s.trapIdx.toNat + 1 < 3200; omega) hd hph
        refine ⟨s.trapIdx + 1#12, d, p, ?_, hj, hd', hp'⟩
        have hdp' := profileDelay_pos (s.trapIdx.toNat + 1) (by omega)
        rw [runToCompletion_trapNext (s := { observe .tuTick s with waitCnt := 0#32 }) hmode hp rfl hh
          (by show s.trapIdx.toNat + 1 ≠ 3200; omega)
          (by rw [he]; intro h0; simp only at h0; rw [h0] at hd'; simp at hd'; omega), he]
        simp [trapWait, stepSet, observe, hmode, hp]
end Sys2Proof.Machine
end

