-- ==== Sys2Proof/Tests/Slice0.lean ====
section
/-! SUPPORT. The model's own tests, with results taken from spec/95_test_vectors.md (V1 to V70) and spec/30_encoding.md;
and for every statement of Certificates/Slice0/Obligations.lean that has hypotheses a witness that meets them. -/

namespace Sys2Proof.Tests

open Sys2Proof.Machine

/-! ### Small states -/

/-- READY, the gate enabled, the generator Idle, no command in progress, every pin 0; dead values in the other registers. -/
def on : State where
  stepPin := 0#1
  dirPin := 0#1
  oeN := 0#1
  initState := .ready
  timerRun := false
  stepBudget := 0#32
  rateDivisor := 0#32
  stepsEmitted := 0#32
  divisorCounter := 0#32
  seqMode := .none
  seqPhase := .wait
  seqRemaining := 0#33
  seqDelay := 0#32
  waitCnt := 0#32
  trapIdx := 0#12
  trapDelay := 0#32
  trapPhase := 0#5
  trapHalf := .low
  rateWritten := false
  draws := 0
  host := []
  agenda := []
  log := []

/-- The gate disabled. -/
def off : State := { on with oeN := 1#1 }

/-- Armed: budget `b`, divisor `r`, `e` toggles made, position `c` in the divisor period. -/
def armedWith (b r e c : Word) : State :=
  { on with timerRun := true, rateWritten := true, stepBudget := b, rateDivisor := r, stepsEmitted := e, divisorCounter := c }

/-- A STEP in a wait: `k` toggles to go, delay `d`, `w` ticks to go. -/
def inStep (k : BitVec 33) (d w : Word) : State :=
  { on with seqMode := .imm, seqRemaining := k, seqDelay := d, waitCnt := w }

/-- A profile in a wait: index, delay, phase counter, half, ticks to go, the pin at the level of the half. -/
def inTrap (i : BitVec 12) (d : Word) (p : BitVec 5) (h : Half) (w : Word) : State :=
  { on with seqMode := .trap, trapIdx := i, trapDelay := d, trapPhase := p, trapHalf := h, waitCnt := w, stepPin := halfLevel h }

/-- The state that an outcome gives; `on` where it gives none. -/
def after (o : StepOutcome) : State :=
  match o with
  | .next t => t
  | .fault _ => on
  | .refused _ => on

/-- The outcome is a next state. -/
def goesOn (o : StepOutcome) : Bool :=
  match o with
  | .next _ => true
  | .fault _ => false
  | .refused _ => false

theorem exists_next {o : StepOutcome} (h : goesOn o = true) : ∃ t, o = .next t := by
  cases o with
  | next t => exact ⟨t, rfl⟩
  | fault f => cases f
  | refused r => cases h

/-! ### WellFormed: `argc` 3 is refused for every command, and its word does not decode -/

theorem test_wellFormed_init : (Instr.init 3#2 0#32 0#32).wellFormed = false := by decide
theorem test_wellFormed_enable : (Instr.enable 3#2 0#32 0#32).wellFormed = false := by decide
theorem test_wellFormed_step : (Instr.step 3#2 5#32 2#32).wellFormed = false := by decide
theorem test_wellFormed_stepTimer : (Instr.stepTimer 3#2 20#32 4#32).wellFormed = false := by decide
theorem test_wellFormed_stepTrapezoid : (Instr.stepTrapezoid 3#2 0#32 0#32).wellFormed = false := by decide
theorem test_wellFormed_timerStop : (Instr.timerStop 3#2 0#32 0#32).wellFormed = false := by decide
theorem test_wellFormed_accepts : (Instr.step 2#2 0x80000000#32 0xFFFFFFFF#32).wellFormed = true := by decide
theorem test_illFormed_word : decode (encode (.step 3#2 5#32 2#32)) = .error .reservedArgc := by decide

/-! ### Decoding, V1: words written out from 30_encoding.md R80 and R82, field by field from the top -/

theorem test_decode_init :
    decode (0b0001#4 ++ 0b00#2 ++ 0b10#2 ++ 0x12345678#32 ++ 0x9ABCDEF0#32) = .ok (.init 2#2 0x12345678#32 0x9ABCDEF0#32) := by
  decide
theorem test_decode_enable : decode 0x22_00000000_DEADBEEF#72 = .ok (.enable 2#2 0#32 0xDEADBEEF#32) := by decide
theorem test_decode_enable_bits :
    decode (0b0010#4 ++ 0b00#2 ++ 0b01#2 ++ 0x00000001#32 ++ 0x00000000#32) = .ok (.enable 1#2 1#32 0#32) := by decide
theorem test_decode_step :
    decode (0b0011#4 ++ 0b00#2 ++ 0b10#2 ++ 0x00000005#32 ++ 0x00000002#32) = .ok (.step 2#2 5#32 2#32) := by decide
theorem test_decode_stepTimer :
    decode (0b0100#4 ++ 0b00#2 ++ 0b10#2 ++ 0x00000014#32 ++ 0x00000004#32) = .ok (.stepTimer 2#2 20#32 4#32) := by decide
theorem test_decode_stepTrapezoid :
    decode (0b0101#4 ++ 0b00#2 ++ 0b00#2 ++ 0#32 ++ 0#32) = .ok (.stepTrapezoid 0#2 0#32 0#32) := by decide
theorem test_decode_timerStop :
    decode (0b0110#4 ++ 0b00#2 ++ 0b00#2 ++ 0#32 ++ 0#32) = .ok (.timerStop 0#2 0#32 0#32) := by decide
theorem test_decode_missing : decode 0x20_00000000_00000000#72 = .ok (.enable 0#2 0#32 0#32) := by decide
theorem test_decode_op0 : decode 0x00_00000000_00000000#72 = .error .reservedOpcode := by decide
theorem test_decode_op7 : decode 0x70_00000000_00000000#72 = .error .reservedOpcode := by decide
theorem test_decode_op15 : decode 0xF2_00000001_00000001#72 = .error .reservedOpcode := by decide
theorem test_decode_argc3 : decode 0x33_00000005_00000002#72 = .error .reservedArgc := by decide
theorem test_decode_rsv1 : decode 0x36_00000005_00000002#72 = .error .reservedBits := by decide
theorem test_decode_rsv2 : decode 0x3A_00000005_00000002#72 = .error .reservedBits := by decide

/-- V3: `step -5 2` as nine bytes. -/
theorem test_bytes_step :
    decodeBytes [0x32#8, 0xFF#8, 0xFF#8, 0xFF#8, 0xFB#8, 0x00#8, 0x00#8, 0x00#8, 0x02#8] =
      some (.ok (.step 2#2 0xFFFFFFFB#32 2#32), []) := by decide
/-- V3: the bytes of `step-timer 20 4`. -/
theorem test_bytes_stepTimer :
    CommandWord.toBytes 0x42_00000014_00000004#72 =
      [0x42#8, 0x00#8, 0x00#8, 0x00#8, 0x14#8, 0x00#8, 0x00#8, 0x00#8, 0x04#8] := by decide
/-- V4: ten pulses counter-clockwise at divisor 4. -/
theorem test_assemble_pulses : assemblePulses (-10) 4 = some 0x42_FFFFFFEC_00000004#72 := by decide
/-- R91: `step 5` is header 0x31; R92: 2^30 pulses do not fit clockwise and fit counter-clockwise. -/
theorem test_assemble_missing : assemble .step [5] = some 0x31_00000005_00000000#72 := by decide
theorem test_assemble_range :
    assemblePulses (2 ^ 30) 1 = none ∧ assemblePulses (-2 ^ 30) 1 = some 0x42_80000000_00000001#72 := by decide
/-- The table numbers bit 0 as the least significant bit of the one word. -/
theorem test_tableWord : decodeTableWord 72 0x320000000500000002 = some (.step 2#2 5#32 2#32) := by decide

/-! ### The commands -/

/-- V10: success gives `STATUS` 0x12. -/
theorem test_init_success : regContent 0 (bringUpDone .success { off with initState := .uninit }) = some 0x12#32 := by decide
/-- V10: failure gives `STATUS` 0x22 and response 3. -/
theorem test_init_failure :
    regContent 0 (bringUpDone .failure { off with initState := .uninit }) = some 0x22#32 ∧
      (initResponse .failure, responseCode (initResponse .failure)) = (.peripheralInitFailure, 3#2) := by decide
/-- V12, first row. -/
theorem test_enable : exec (.enable 1#2 0#32 0#32) off =
    .next { off with oeN := 0#1, log := [.response .ok, .oeWrite 0#1] } := by rfl
/-- V12, fourth row, and V11: a missing argument is reported also while not READY. -/
theorem test_enable_missing : exec (.enable 0#2 0#32 0#32) { off with initState := .failed } =
    .next { off with initState := .failed, log := [.response .missingArgument] } := by rfl
/-- V30, after the `Cmd` event of `step 5 2`. -/
theorem test_step_starts :
    let t := after (exec (.step 2#2 5#32 2#32) on)
    t.seqMode = .imm ∧ t.seqPhase = .wait ∧ t.seqRemaining = 9#33 ∧ t.seqDelay = 2#32 ∧ t.waitCnt = 2#32 ∧
      t.stepPin = 1#1 := by decide
/-- V28: `step -2147483648 0` from pin 1: 4294967296 toggles at once, and the pin as before. -/
theorem test_step_burst :
    let t := after (exec (.step 2#2 0x80000000#32 0#32) { on with stepPin := 1#1 })
    t.seqMode = .none ∧ t.stepPin = 1#1 ∧ togglesIn t.log = 4294967296 ∧ responsesIn t.log = 1 := by decide
/-- V32: `step-timer -2147483648 1` stores the magnitude. -/
theorem test_stepTimer :
    let t := after (exec (.stepTimer 2#2 0x80000000#32 1#32) { on with stepPin := 1#1 })
    t.stepBudget = 0x80000000#32 ∧ t.rateDivisor = 1#32 ∧ t.timerRun = true ∧ t.stepPin = 1#1 := by decide
/-- V33: the gate turns a re-arm away, and the running program is not disturbed. -/
theorem test_stepTimer_disabled :
    exec (.stepTimer 2#2 6#32 2#32) { armedWith 20#32 4#32 3#32 2#32 with oeN := 1#1 } =
      .next { armedWith 20#32 4#32 3#32 2#32 with oeN := 1#1, log := [.response .driverDisabled] } := by rfl
/-- V53: junk arguments are ignored; V50: index 0 waits 10. -/
theorem test_stepTrapezoid :
    let t := after (exec (.stepTrapezoid 2#2 0xFFFFFFFF#32 0x63#32) { on with stepPin := 1#1 })
    t.seqMode = .trap ∧ t.stepPin = 0#1 ∧ t.waitCnt = 10#32 ∧ t.trapIdx = 0#12 := by decide
/-- V51. -/
theorem test_stepTrapezoid_disabled : exec (.stepTrapezoid 0#2 0#32 0#32) off =
    .next { off with log := [.response .driverDisabled] } := by rfl
/-- V13, with the gate disabled. -/
theorem test_timerStop : exec (.timerStop 0#2 0#32 0#32) { armedWith 20#32 4#32 7#32 3#32 with oeN := 1#1 } =
    .next { armedWith 20#32 4#32 7#32 3#32 with oeN := 1#1, timerRun := false, log := [.response .ok] } := by rfl

/-! ### The events -/

/-- V30: tick 2 of `step 5 2` makes the second toggle. -/
theorem test_tick_toggles :
    let t := tuTick { inStep 9#33 2#32 1#32 with stepPin := 1#1 }
    t.stepPin = 0#1 ∧ t.seqRemaining = 8#33 ∧ t.waitCnt = 2#32 ∧ t.seqPhase = .wait := by decide
/-- V30: tick 20 ends it. -/
theorem test_tick_ends :
    let t := tuTick (inStep 0#33 2#32 1#32)
    t.seqMode = .none ∧ t.log = [.response .ok, .tuTick] ∧ t.waitCnt = 0#32 := by decide
/-- V50: index 20 begins with delay 9 and the phase counter cleared. -/
theorem test_trap_cadence :
    let t := tuTick (inTrap 19#12 10#32 19#5 .high 1#32)
    t.trapIdx = 20#12 ∧ t.trapDelay = 9#32 ∧ t.trapPhase = 0#5 ∧ t.waitCnt = 9#32 ∧ t.stepPin = 0#1 := by decide
/-- V50: index 3000 begins with delay 2, from the frozen phase counter. -/
theorem test_trap_decel :
    let t := tuTick (inTrap 2999#12 1#32 20#5 .high 1#32)
    t.trapIdx = 3000#12 ∧ t.trapDelay = 2#32 ∧ t.trapPhase = 0#5 := by decide
/-- V50, last lines: the end of index 3199. -/
theorem test_trap_ends :
    let t := tuTick (inTrap 3199#12 11#32 19#5 .high 1#32)
    t.seqMode = .none ∧ t.trapIdx = 3200#12 ∧ t.trapPhase = 20#5 ∧ t.trapDelay = 11#32 ∧ t.stepPin = 1#1 := by decide
/-- V34, firing 3: the counter is cleared at the divisor. -/
theorem test_fire_divides :
    let t := fire (armedWith 5#32 3#32 1#32 2#32)
    t.stepsEmitted = 1#32 ∧ t.divisorCounter = 0#32 ∧ t.stepPin = 0#1 := by decide
/-- V34, firing 16: exhausted, though the counter was 0. -/
theorem test_fire_exhausted :
    let t := fire (armedWith 5#32 3#32 5#32 0#32)
    t.stepsEmitted = 5#32 ∧ t.divisorCounter = 1#32 ∧ t.stepPin = 0#1 ∧ t.timerRun = true := by decide
/-- V39, firing 4294967296: with divisor 0 the counter wraps. -/
theorem test_fire_wraps : (fire (armedWith 3#32 0#32 1#32 0xFFFFFFFF#32)).divisorCounter = 0#32 := by decide
/-- V41: the handler toggles with the gate disabled. -/
theorem test_fire_disabled : (fire { armedWith 20#32 4#32 2#32 0#32 with oeN := 1#1 }).stepPin = 1#1 := by decide
/-- V43. -/
theorem test_regRead :
    regRead 3 (armedWith 20#32 4#32 10#32 1#32) =
      .next { armedWith 20#32 4#32 10#32 1#32 with log := [.readValue 3 10#32] } ∧
    regRead 5 on = .refused (.reservedRegister 5) := ⟨rfl, rfl⟩
/-- V70. -/
theorem test_reset :
    let t := after (step { inStep 6#33 2#32 1#32 with agenda := [.reset] })
    t.seqMode = .none ∧ t.timerRun = false ∧ t.initState = .uninit ∧ t.log = [.reset] := by decide
/-- The state after reset runs a placed INIT; a placed TIMER_STOP is refused there (V11, U1). -/
theorem test_placed_word :
    goesOn (step (State.reset.withFetchWord 72 0x100000000000000000)) = true ∧
      step (State.reset.withFetchWord 72 0x600000000000000000) = .refused .notInitialised := ⟨by decide, rfl⟩
/-- V31: a word presented during a STEP is held. -/
theorem test_port_held :
    (after (step { inStep 6#33 2#32 1#32 with agenda := [.host], host := [.read 0] })).host = [.read 0] := by decide

/-! ### Witnesses: for each statement with hypotheses, values that meet them, clause by clause at the ends of its ranges -/

theorem runInv_on : RunInv on := by unfold RunInv rateInv busyInv immInv trapInv; decide
theorem runInv_off : RunInv off := by unfold RunInv rateInv busyInv immInv trapInv; decide
theorem runInv_inStep : RunInv (inStep 1#33 2#32 1#32) := by unfold RunInv rateInv busyInv immInv trapInv; decide
theorem runInv_inTrap : RunInv (inTrap 3199#12 11#32 19#5 .high 1#32) := by
  unfold RunInv rateInv busyInv immInv trapInv; decide
theorem runInv_armed : RunInv (armedWith 0x80000000#32 1#32 0#32 0#32) := by
  unfold RunInv rateInv busyInv immInv trapInv; decide
/-- An exhausted generator during a profile. -/
theorem runInv_both : RunInv { inTrap 0#12 10#32 0#5 .low 10#32 with
    timerRun := true, rateWritten := true, stepBudget := 2#32, stepsEmitted := 2#32, rateDivisor := 3#32 } := by
  unfold RunInv rateInv busyInv immInv trapInv; decide

theorem witness_DecodeOfEncode :
    (Instr.init 0#2 0#32 0#32).wellFormed = true ∧ (Instr.enable 1#2 0xFFFFFFFF#32 0#32).wellFormed = true ∧
      (Instr.step 2#2 0x80000000#32 0xFFFFFFFF#32).wellFormed = true ∧ (Instr.stepTimer 0#2 0#32 0#32).wellFormed = true ∧
      (Instr.stepTrapezoid 2#2 1#32 1#32).wellFormed = true ∧ (Instr.timerStop 1#2 0#32 0#32).wellFormed = true := by decide

theorem witness_EncodeOfDecode : decode 0x62_FFFFFFFF_FFFFFFFF#72 = .ok (.timerStop 2#2 0xFFFFFFFF#32 0xFFFFFFFF#32) := by
  decide

/-- `rsv` 1 and 3, `argc` 3, `op` 0, 7 and 15, the legal words of the first and the last opcode, and a small `argc`. -/
theorem witness_DecoderReadsEveryWord :
    (0x36_00000000_00000000#72).extractLsb' 66 2 = 1#2 ∧ (0x3C_00000000_00000000#72).extractLsb' 66 2 = 3#2 ∧
    (0x33_00000000_00000000#72).extractLsb' 64 2 = 3#2 ∧ (0x00_00000000_00000000#72).extractLsb' 68 4 = 0#4 ∧
    7#4 ≤ (0x70_00000000_00000000#72).extractLsb' 68 4 ∧ 7#4 ≤ (0xF0_00000000_00000000#72).extractLsb' 68 4 ∧
    ((0x10_00000000_00000000#72).extractLsb' 66 2 = 0#2 ∧ (0x10_00000000_00000000#72).extractLsb' 64 2 ≠ 3#2 ∧
      (0x10_00000000_00000000#72).extractLsb' 68 4 ≠ 0#4 ∧ (0x10_00000000_00000000#72).extractLsb' 68 4 < 7#4) ∧
    ((0x62_00000000_00000000#72).extractLsb' 66 2 = 0#2 ∧ (0x62_00000000_00000000#72).extractLsb' 64 2 ≠ 3#2 ∧
      (0x62_00000000_00000000#72).extractLsb' 68 4 ≠ 0#4 ∧ (0x62_00000000_00000000#72).extractLsb' 68 4 < 7#4) ∧
    (Instr.enable 0#2 0#32 0#32).argc.toNat < (Instr.enable 0#2 0#32 0#32).opcode.argsRequired := by decide

theorem witness_IllegalWordsRefused : decode 0xF0_00000000_00000000#72 = .error .reservedOpcode := by decide

/-- The counts 1, 0, -1 and -2^31, and the two commands that take one. -/
theorem witness_SignedCountSplits :
    0 < (1#32 : Word).toInt ∧ (0#32 : Word).toInt ≤ 0 ∧ (0x80000000#32 : Word).toInt ≤ 0 ∧
    on.initState = .ready ∧ on.oeN = 0#1 ∧ on.seqMode = .none ∧ active on = false ∧
    (∃ t, exec (.stepTimer 2#2 0x80000000#32 0#32) on = .next t) ∧
    (∃ t, exec (.step 2#2 0x80000000#32 0#32) on = .next t) ∧ ∃ t, exec (.step 2#2 0#32 1#32) on = .next t := by
  refine ⟨by decide, by decide, by decide, rfl, rfl, rfl, rfl, exists_next ?_, exists_next ?_, exists_next ?_⟩ <;> decide

theorem witness_ResetRestoresRegisters : ({ inStep 6#33 2#32 1#32 with agenda := [.reset] } : State).agenda = .reset :: [] := rfl

theorem witness_NothingMovesAfterReset :
    State.reset.timerRun = false ∧ State.reset.seqMode = .none ∧
    ({ State.reset with agenda := [.tuTick] } : State).agenda = .tuTick :: [] ∧
    ({ State.reset with agenda := [.fire] } : State).agenda = .fire :: [] := ⟨rfl, rfl, rfl, rfl⟩

theorem witness_InvariantKept :
    RunInv { inTrap 3199#12 11#32 19#5 .high 1#32 with agenda := [.tuTick] } ∧
    ∃ t, step { inTrap 3199#12 11#32 19#5 .high 1#32 with agenda := [.tuTick] } = .next t :=
  ⟨runInv_inTrap, exists_next (by decide)⟩

/-- One command for each branch of the chain. -/
theorem witness_ChecksInOrder :
    decode 0x70_00000000_00000000#72 = .error .reservedOpcode ∧
    (Instr.step 1#2 0#32 0#32).argc.toNat < (Instr.step 1#2 0#32 0#32).opcode.argsRequired ∧
    ((Instr.step 2#2 0#32 0#32).opcode ≠ .init ∧ State.reset.initState ≠ .ready) ∧
    ((armedWith 1#32 1#32 0#32 0#32).timerRun = true ∧
      (armedWith 1#32 1#32 0#32 0#32).stepsEmitted < (armedWith 1#32 1#32 0#32 0#32).stepBudget) ∧
    (Instr.init 0#2 0#32 0#32).opcode = .init ∧ off.oeN ≠ 0#1 ∧ on.oeN = 0#1 := by decide

theorem witness_InitResult :
    (2#2 ≠ 3#2 ∧ on.timerRun = false) ∧ (0#2 ≠ 3#2 ∧ (armedWith 1#32 1#32 1#32 0#32).timerRun = true) := by decide

theorem witness_EnableResult :
    (inStep 1#33 1#32 1#32).seqMode ≠ .none ∧
    ({ inStep 1#33 1#32 1#32 with agenda := [.host], host := [.cmd (encode (.enable 1#2 1#32 0#32))] } : State).agenda =
      .host :: [] ∧
    ({ inStep 1#33 1#32 1#32 with agenda := [.host], host := [.cmd (encode (.enable 1#2 1#32 0#32))] } : State).host.head? =
      some (.cmd (encode (.enable 1#2 1#32 0#32))) ∧
    on.initState = .ready ∧ 1#32 < 2#32 ∧ 1#32 < 0xFFFFFFFF#32 := by decide

theorem witness_TimerStopResult :
    0#2 ≠ 3#2 ∧ on.initState = .ready ∧ (∃ t, exec (.timerStop 0#2 0#32 0#32) on = .next t) ∧
    on.timerRun = false ∧
    ∃ t, step { on with agenda := [.host], host := [.cmd (encode (.stepTimer 2#2 1#32 1#32))] } = .next t ∧
      t.timerRun = true := by
  refine ⟨by decide, rfl, exists_next (by decide), rfl, ?_⟩
  obtain ⟨t, h⟩ := exists_next
    (o := step { on with agenda := [.host], host := [.cmd (encode (.stepTimer 2#2 1#32 1#32))] }) (by decide)
  refine ⟨t, h, ?_⟩
  have : (after (step { on with agenda := [.host], host := [.cmd (encode (.stepTimer 2#2 1#32 1#32))] })).timerRun = true := by
    decide
  rw [h] at this
  exact this

theorem witness_StepStarts :
    on.initState = .ready ∧ active on = false ∧ on.oeN = 0#1 ∧ 0x80000000#32 ≠ 0#32 ∧ 0xFFFFFFFF#32 ≠ 0#32 := by decide

theorem witness_StepZeroCount :
    (on.initState = .ready ∧ active on = false ∧ on.oeN = 0#1) ∧ (off.initState = .ready ∧ active off = false ∧ off.oeN = 1#1) := by
  decide

theorem witness_StepDelayZero :
    on.initState = .ready ∧ active on = false ∧ on.oeN = 0#1 ∧ 0x80000000#32 ≠ 0#32 := by decide

/-- The shortest schedule, and its first and last tick before the end. -/
theorem witness_StepSchedule :
    on.initState = .ready ∧ active on = false ∧ on.oeN = 0#1 ∧ 1#32 ≠ 0#32 ∧
    (∃ t, exec (.step 2#2 1#32 1#32) on = .next t) ∧
    0 < 2 * (1#32 : Word).toInt.natAbs * (1#32 : Word).toNat ∧ 1 < 2 * (1#32 : Word).toInt.natAbs * (1#32 : Word).toNat :=
  ⟨rfl, rfl, rfl, by decide, exists_next (by decide), by decide, by decide⟩

theorem witness_StepTimerResult :
    (on.initState = .ready ∧ on.oeN = 0#1) ∧ (0#2).toNat < 2 ∧ (1#2).toNat < 2 ∧ (off.initState = .ready ∧ off.oeN = 1#1) := by
  decide

theorem witness_StepTrapezoidStarts :
    2#2 ≠ 3#2 ∧ on.initState = .ready ∧ active on = false ∧ on.oeN = 0#1 := by decide

/-- The first and the last index, the first and the last tick of a half, the last tick before the end. -/
theorem witness_TrapezoidSchedule :
    0#2 ≠ 3#2 ∧ on.initState = .ready ∧ active on = false ∧ on.oeN = 0#1 ∧
    (∃ t, exec (.stepTrapezoid 0#2 0#32 0#32) on = .next t) ∧
    (0 < 3200 ∧ 9 < profileDelay 0) ∧ (3199 < 3200 ∧ 10 < profileDelay 3199) ∧ 10399 < 10400 :=
  ⟨by decide, rfl, rfl, rfl, exists_next (by decide), by decide, by decide, by decide⟩

/-- The ends of the three zones. -/
theorem witness_ProfileDelays :
    0#2 ≠ 3#2 ∧ on.initState = .ready ∧ active on = false ∧ on.oeN = 0#1 ∧
    (∃ t, exec (.stepTrapezoid 0#2 0#32 0#32) on = .next t) ∧ (199 < 3200 ∧ 199 < 200) ∧ (200 ≤ 200 ∧ 2999 < 3000) ∧
    3000 ≤ 3000 ∧ 3000 ≤ 3199 ∧ 3199 < 3200 :=
  ⟨by decide, rfl, rfl, rfl, exists_next (by decide), by decide, by decide, by decide, by decide, by decide⟩

theorem witness_ProfileDirectionFixed :
    (0#2 ≠ 3#2 ∧ on.initState = .ready ∧ active on = false ∧ on.oeN = 0#1 ∧
      ∃ t, exec (.stepTrapezoid 0#2 0#32 0#32) on = .next t) ∧
    (off.oeN = 1#1 ∧ ∃ t, exec (.stepTrapezoid 0#2 0#32 0#32) off = .next t) ∧
    ((inTrap 0#12 10#32 0#5 .low 1#32).seqMode = .trap ∧
      (∀ rest, ({ inTrap 0#12 10#32 0#5 .low 1#32 with agenda := [.tuTick] } : State).agenda ≠ .reset :: rest) ∧
      ∃ t, step { inTrap 0#12 10#32 0#5 .low 1#32 with agenda := [.tuTick] } = .next t) :=
  ⟨⟨by decide, rfl, rfl, rfl, exists_next (by decide)⟩, ⟨rfl, exists_next (by decide)⟩,
    rfl, by simp, exists_next (by decide)⟩

theorem witness_MissingArgumentExactly :
    (Instr.enable 0#2 0#32 0#32).wellFormed = true ∧ (Instr.step 1#2 0#32 0#32).wellFormed = true ∧
    (∃ t, exec (.stepTimer 1#2 0#32 0#32) on = .next t) ∧
    (after (exec (.stepTimer 1#2 0#32 0#32) on)).log.head? = some (.response .missingArgument) :=
  ⟨by decide, by decide, exists_next (by decide), by decide⟩

theorem witness_DriverDisabledExactly :
    ((Instr.step 2#2 1#32 1#32).wellFormed = true ∧
      (Instr.step 2#2 1#32 1#32).opcode.argsRequired ≤ (Instr.step 2#2 1#32 1#32).argc.toNat ∧ off.initState = .ready ∧
      off.oeN = 1#1 ∧ active off = false) ∧
    ((Instr.stepTimer 2#2 1#32 1#32).wellFormed = true ∧
      (Instr.stepTimer 2#2 1#32 1#32).opcode.argsRequired ≤ (Instr.stepTimer 2#2 1#32 1#32).argc.toNat) ∧
    (∃ t, exec (.stepTrapezoid 0#2 0#32 0#32) off = .next t) ∧
    (after (exec (.stepTrapezoid 0#2 0#32 0#32) off)).log.head? = some (.response .driverDisabled) :=
  ⟨⟨by decide, by decide, rfl, rfl, rfl⟩, ⟨by decide, by decide⟩, exists_next (by decide), by decide⟩

theorem witness_PeripheralInitFailureExactly :
    (∃ t, exec (.init 2#2 0#32 0#32) on = .next t) ∧ (Instr.init 2#2 0#32 0#32).opcode = .init ∧
    ({ on with initState := .failed } : State).initState = .failed ∧ (Instr.timerStop 0#2 0#32 0#32).wellFormed = true ∧
    (Instr.timerStop 0#2 0#32 0#32).opcode ≠ .init ∧
    (Instr.timerStop 0#2 0#32 0#32).opcode.argsRequired ≤ (Instr.timerStop 0#2 0#32 0#32).argc.toNat :=
  ⟨exists_next (by decide), rfl, rfl, by decide, by decide, by decide⟩

theorem witness_OneResponsePerCommand :
    (on.seqMode = .none ∧ ∃ t, exec (.step 2#2 1#32 1#32) on = .next t) ∧
    ((Instr.timerStop 0#2 0#32 0#32).opcode ≠ .step ∧ (Instr.timerStop 0#2 0#32 0#32).opcode ≠ .stepTrapezoid) ∧
    ((inStep 0#33 2#32 1#32).seqMode ≠ .none ∧ (tuTick (inStep 0#33 2#32 1#32)).seqMode = .none) :=
  ⟨⟨rfl, exists_next (by decide)⟩, by decide, by decide⟩

theorem witness_NotReadyRefused :
    ((Instr.timerStop 0#2 0#32 0#32).wellFormed = true ∧ (Instr.timerStop 0#2 0#32 0#32).opcode ≠ .init ∧
      State.reset.initState ≠ .ready ∧
      (Instr.timerStop 0#2 0#32 0#32).opcode.argsRequired ≤ (Instr.timerStop 0#2 0#32 0#32).argc.toNat) ∧
    ((Instr.step 1#2 0#32 0#32).wellFormed = true ∧
      (Instr.step 1#2 0#32 0#32).argc.toNat < (Instr.step 1#2 0#32 0#32).opcode.argsRequired) := by decide

/-- One toggle left, and none left. -/
theorem witness_OneDisciplineAtATime :
    ((armedWith 2#32 1#32 1#32 0#32).initState = .ready ∧ (armedWith 2#32 1#32 1#32 0#32).timerRun = true ∧
      (armedWith 2#32 1#32 1#32 0#32).stepsEmitted < (armedWith 2#32 1#32 1#32 0#32).stepBudget) ∧
    ((armedWith 2#32 1#32 2#32 0#32).stepsEmitted = (armedWith 2#32 1#32 2#32 0#32).stepBudget ∧
      (armedWith 2#32 1#32 2#32 0#32).oeN = 0#1 ∧ 0#2 ≠ 3#2) := by decide

/-- Register 0 before any STEP_TIMER, register 4 after one, and a read held during a STEP. -/
theorem witness_RegisterMap :
    ((inStep 1#33 1#32 1#32).seqMode ≠ .none ∧
      ({ inStep 1#33 1#32 1#32 with agenda := [.host], host := [.read 0] } : State).agenda = .host :: [] ∧
      ({ inStep 1#33 1#32 1#32 with agenda := [.host], host := [.read 0] } : State).host = .read 0 :: []) ∧
    (on.seqMode = .none ∧ 0 ≤ 4 ∧ (0 ≠ 0 → on.rateWritten = true)) ∧
    ((armedWith 1#32 1#32 0#32 0#32).seqMode = .none ∧ 4 ≤ 4 ∧ (4 ≠ 0 → (armedWith 1#32 1#32 0#32 0#32).rateWritten = true)) := by
  decide

theorem witness_ReadBeforeFirstArm : on.rateWritten = false ∧ (1 ≤ 1 ∧ 1 ≤ 4) ∧ (1 ≤ 4 ∧ 4 ≤ 4) ∧ 4 < 5 := by decide

theorem witness_HostWritesNoRegister :
    (∃ t, regRead 0 on = .next t) ∧
    (∃ t, step { inStep 0#33 1#32 1#32 with agenda := [.tuTick] } = .next t ∧
      ¬SameRegisters { inStep 0#33 1#32 1#32 with agenda := [.tuTick] } t) ∧
    ∃ t, exec (.stepTimer 2#2 1#32 1#32) (armedWith 1#32 2#32 1#32 1#32) = .next t ∧
      t.stepsEmitted ≠ (armedWith 1#32 2#32 1#32 1#32).stepsEmitted := by
  refine ⟨exists_next (by decide), ?_, ?_⟩
  · refine ⟨_, rfl, ?_⟩
    decide
  · refine ⟨_, rfl, ?_⟩
    show 0#32 ≠ 1#32
    decide

/-- The host's turn with the word of `i` at the port. -/
def given (i : Instr) (s : State) : State := { s with agenda := [.host], host := [.cmd (encode i)] }

/-- The next step is no reset, answers a next state, and changes what `f` reads. -/
def Changes {α : Type} (f : State → α) (s : State) : Prop :=
  (∀ rest, s.agenda ≠ .reset :: rest) ∧ ∃ t, step s = .next t ∧ f t ≠ f s

/-- `Changes` from three conditions that evaluate. -/
theorem changes {α : Type} {f : State → α} {s : State} (ha : s.agenda.head? ≠ some .reset) (hg : goesOn (step s) = true)
    (hc : f (after (step s)) ≠ f s) : Changes f s := by
  refine ⟨fun rest h => ha (by rw [h]; rfl), ?_⟩
  obtain ⟨t, h⟩ := exists_next hg
  rw [h] at hc
  exact ⟨t, h, hc⟩

/-- For each pin and control register every event that can change it does so somewhere. -/
theorem witness_WritersOfRegisters :
    (Changes State.stepPin { armedWith 4#32 1#32 0#32 0#32 with agenda := [.fire] } ∧
      Changes State.stepPin { inStep 3#33 2#32 1#32 with agenda := [.tuTick] } ∧
      Changes State.stepPin (given (.step 2#2 5#32 2#32) on) ∧
      Changes State.stepPin (given (.stepTrapezoid 0#2 0#32 0#32) { on with stepPin := 1#1 })) ∧
    (Changes State.dirPin (given (.step 2#2 5#32 2#32) { on with dirPin := ~~~Config.dirCw }) ∧
      Changes State.dirPin (given (.stepTimer 2#2 5#32 2#32) { on with dirPin := ~~~Config.dirCw }) ∧
      Changes State.dirPin (given (.stepTrapezoid 0#2 0#32 0#32) { on with dirPin := ~~~Config.dirCw })) ∧
    Changes State.oeN (given (.enable 1#2 1#32 0#32) on) ∧
    Changes State.initState (given (.init 0#2 0#32 0#32) { on with initState := .uninit }) ∧
    Changes State.timerRun (given (.stepTimer 2#2 1#32 1#32) on) ∧
    Changes State.timerRun (given (.timerStop 0#2 0#32 0#32) (armedWith 4#32 1#32 0#32 0#32)) := by
  have hd : ∀ l : Level, l ≠ ~~~l := by decide
  refine ⟨⟨changes (by decide) (by decide) (by decide), changes (by decide) (by decide) (by decide),
    changes (by decide) (by decide) (by decide), changes (by decide) (by decide) (by decide)⟩,
    ⟨changes (by decide) (by decide) (hd _), changes (by decide) (by decide) (hd _),
      changes (by decide) (by decide) (hd _)⟩,
    changes (by decide) (by decide) (by decide), changes (by decide) (by decide) ?_,
    changes (by decide) (by decide) (by decide), changes (by decide) (by decide) (by decide)⟩
  change initStateAfter (Config.bringUp 0) ≠ .uninit
  cases Config.bringUp 0 <;> decide

/-- The same for the RateProgram and for the sequencer. -/
theorem witness_WritersOfRegisters_rate_and_sequencer :
    (Changes State.stepBudget (given (.stepTimer 2#2 5#32 2#32) on) ∧
      Changes State.rateDivisor (given (.stepTimer 2#2 5#32 2#32) on)) ∧
    (Changes State.stepsEmitted { armedWith 4#32 3#32 0#32 0#32 with agenda := [.fire] } ∧
      Changes State.divisorCounter { armedWith 4#32 3#32 0#32 0#32 with agenda := [.fire] } ∧
      Changes State.stepsEmitted (given (.stepTimer 2#2 5#32 2#32) (armedWith 4#32 3#32 1#32 1#32)) ∧
      Changes State.divisorCounter (given (.stepTimer 2#2 5#32 2#32) (armedWith 4#32 3#32 1#32 1#32))) ∧
    (Changes State.waitCnt { inStep 3#33 2#32 2#32 with agenda := [.tuTick] } ∧
      Changes State.seqMode (given (.step 2#2 5#32 2#32) on) ∧
      Changes State.seqMode (given (.stepTrapezoid 0#2 0#32 0#32) on) ∧
      Changes State.seqPhase (given (.step 2#2 5#32 2#32) { on with seqPhase := .act })) ∧
    (Changes State.seqRemaining { inStep 3#33 2#32 1#32 with agenda := [.tuTick] } ∧
      Changes State.seqRemaining (given (.step 2#2 5#32 2#32) on) ∧
      Changes State.seqDelay (given (.step 2#2 5#32 2#32) on)) ∧
    Changes State.trapIdx { inTrap 19#12 10#32 19#5 .high 1#32 with agenda := [.tuTick] } ∧
    Changes State.trapDelay { inTrap 19#12 10#32 19#5 .high 1#32 with agenda := [.tuTick] } ∧
    Changes State.trapPhase { inTrap 19#12 10#32 19#5 .high 1#32 with agenda := [.tuTick] } ∧
    Changes State.trapHalf { inTrap 19#12 10#32 19#5 .low 1#32 with agenda := [.tuTick] } ∧
    Changes State.trapDelay (given (.stepTrapezoid 0#2 0#32 0#32) on) := by
  refine ⟨⟨?_, ?_⟩, ⟨?_, ?_, ?_, ?_⟩, ⟨?_, ?_, ?_, ?_⟩, ⟨?_, ?_, ?_⟩, ?_, ?_, ?_, ?_, ?_⟩ <;>
    exact changes (by decide) (by decide) (by decide)

theorem witness_TimerRunTransitions :
    (∃ t, exec (.stepTimer 2#2 1#32 1#32) on = .next t) ∧ (∃ t, exec (.stepTimer 2#2 1#32 1#32) off = .next t) ∧
    (∃ t, exec (.timerStop 0#2 0#32 0#32) on = .next t) ∧
    ∃ t, step { on with agenda := [.host], host := [.cmd (encode (.stepTimer 2#2 1#32 1#32))] } = .next t ∧
      t.timerRun ≠ on.timerRun := by
  refine ⟨exists_next (by decide), exists_next (by decide), exists_next (by decide), ?_⟩
  obtain ⟨-, -, -, -, t, h, ht⟩ := witness_TimerStopResult
  exact ⟨t, h, by rw [ht]; decide⟩

/-- Idle; the last toggle; used up; in the middle of a divisor period. -/
theorem witness_FireEffect :
    ({ on with agenda := [.fire] } : State).agenda = .fire :: [] ∧ on.timerRun = false ∧
    ((armedWith 1#32 1#32 0#32 0#32).timerRun = true ∧
      (armedWith 1#32 1#32 0#32 0#32).stepsEmitted < (armedWith 1#32 1#32 0#32 0#32).stepBudget ∧
      (armedWith 1#32 1#32 0#32 0#32).divisorCounter = 0#32) ∧
    ((armedWith 1#32 1#32 1#32 0#32).stepBudget ≤ (armedWith 1#32 1#32 1#32 0#32).stepsEmitted) ∧
    (armedWith 1#32 2#32 0#32 1#32).divisorCounter ≠ 0#32 := by decide

theorem witness_GeneratorClosedForm :
    on.initState = .ready ∧ on.oeN = 0#1 ∧ (∃ t, exec (.stepTimer 2#2 5#32 3#32) on = .next t) ∧
    ∃ t, exec (.stepTimer 2#2 0x80000000#32 0#32) on = .next t :=
  ⟨rfl, rfl, exists_next (by decide), exists_next (by decide)⟩

theorem witness_ExhaustionIsTerminal :
    (armedWith 0#32 3#32 0#32 0#32).timerRun = true ∧
      (armedWith 0#32 3#32 0#32 0#32).stepsEmitted = (armedWith 0#32 3#32 0#32 0#32).stepBudget := by decide

theorem witness_HandlerIgnoresGate : ∃ t, exec (.enable 1#2 1#32 0#32) (armedWith 20#32 4#32 2#32 2#32) = .next t :=
  exists_next (by decide)

theorem witness_FireDuringStep :
    ((inStep 1#33 1#32 1#32).seqMode = .imm ∧
      ({ inStep 1#33 1#32 1#32 with timerRun := true, agenda := [.fire] } : State).timerRun = true ∧
      ({ inStep 1#33 1#32 1#32 with timerRun := true, agenda := [.fire] } : State).agenda = .fire :: []) ∧
    (armedWith 0#32 3#32 0#32 0#32).stepBudget ≤ (armedWith 0#32 3#32 0#32 0#32).stepsEmitted ∧
    ((armedWith 1#32 1#32 0#32 0#32).initState = .ready ∧ (armedWith 1#32 1#32 0#32 0#32).timerRun = true ∧
      (armedWith 1#32 1#32 0#32 0#32).stepsEmitted < (armedWith 1#32 1#32 0#32 0#32).stepBudget) := by decide

theorem witness_SequencerStepsImm :
    (inStep 1#33 1#32 0#32).seqMode = .imm ∧ ({ inStep 1#33 1#32 0#32 with seqPhase := .act } : State).seqPhase = .act ∧
    (inStep 1#33 1#32 0#32).seqPhase = .wait ∧ (inStep 1#33 1#32 0#32).waitCnt = 0#32 ∧
    (inStep 0#33 1#32 0#32).seqRemaining = 0#33 ∧ (inStep 1#33 1#32 0#32).seqRemaining ≠ 0#33 ∧
    (inStep 1#33 1#32 1#32).waitCnt ≠ 0#32 := by decide

/-- Indices 199 and 3000 with a full phase counter, 200 and 2999 beside them; the end of 3199 and of 0; the invariant. -/
theorem witness_SequencerStepsTrap :
    (inTrap 199#12 1#32 20#5 .low 0#32).seqMode = .trap ∧
    ({ inTrap 199#12 1#32 20#5 .low 0#32 with seqPhase := .act } : State).seqPhase = .act ∧
    ((inTrap 199#12 1#32 20#5 .low 0#32).trapIdx < 200#12 ∧ (inTrap 199#12 1#32 20#5 .low 0#32).trapPhase = 20#5) ∧
    3000#12 ≤ (inTrap 3000#12 1#32 20#5 .low 0#32).trapIdx ∧
    ¬((inTrap 200#12 1#32 20#5 .low 0#32).trapIdx < 200#12 ∨ 3000#12 ≤ (inTrap 200#12 1#32 20#5 .low 0#32).trapIdx) ∧
    ¬((inTrap 2999#12 1#32 20#5 .low 0#32).trapIdx < 200#12 ∨ 3000#12 ≤ (inTrap 2999#12 1#32 20#5 .low 0#32).trapIdx) ∧
    (inTrap 0#12 10#32 0#5 .high 0#32).trapHalf = .high ∧ (inTrap 0#12 10#32 0#5 .high 0#32).seqPhase = .wait ∧
    (inTrap 0#12 10#32 0#5 .high 0#32).waitCnt = 0#32 ∧ (inTrap 0#12 10#32 0#5 .high 0#32).trapIdx ≠ 3199#12 ∧
    (inTrap 3199#12 11#32 19#5 .high 0#32).trapIdx = 3199#12 ∧ RunInv (inTrap 3199#12 11#32 19#5 .high 1#32) :=
  ⟨rfl, rfl, by decide, by decide, by decide, by decide, rfl, rfl, rfl, by decide, rfl, runInv_inTrap⟩

theorem witness_RunToCompletionIsSteps : on.seqMode = .none ∧ ∃ t, exec (.step 2#2 1#32 1#32) on = .next t :=
  ⟨rfl, exists_next (by decide)⟩

/-- Idle; a wait of three ticks with none and two counted; the last tick; a wait of 0. -/
theorem witness_WaitsAreExact :
    on.seqMode = .none ∧ ((inStep 1#33 3#32 3#32).seqMode ≠ .none ∧ (inStep 1#33 3#32 3#32).seqPhase = .wait ∧
      0 < (inStep 1#33 3#32 3#32).waitCnt.toNat ∧ 2 < (inStep 1#33 3#32 3#32).waitCnt.toNat) ∧
    (inStep 1#33 3#32 1#32).waitCnt = 1#32 ∧ (inStep 1#33 3#32 0#32).waitCnt = 0#32 := by decide

theorem witness_BusyHoldsPort :
    (inStep 1#33 3#32 3#32).seqMode ≠ .none ∧ ({ inStep 1#33 3#32 3#32 with agenda := [.host] } : State).agenda = .host :: [] ∧
    ({ inStep 1#33 3#32 3#32 with agenda := [.tuTick] } : State).agenda = .tuTick :: [] ∧
    ({ inStep 1#33 3#32 3#32 with timerRun := true, agenda := [.fire] } : State).agenda = .fire :: [] ∧
    ({ inStep 1#33 3#32 3#32 with timerRun := true, agenda := [.fire] } : State).timerRun = true := by decide

theorem witness_StepRunsDecoded :
    (({ on with agenda := [.host], host := [.cmd 0x210000000000000000#72] } : State).agenda = .host :: [] ∧ on.seqMode = .none ∧
      ({ on with agenda := [.host], host := [.cmd 0x210000000000000000#72] } : State).host = .cmd 0x210000000000000000#72 :: [] ∧
      decode 0x210000000000000000#72 = .ok (.enable 1#2 0#32 0#32)) ∧
    decodeTableWord 72 0x210000000000000000 = some (.enable 1#2 0#32 0#32) := by decide

theorem witness_TicksBringTheEnd :
    (RunInv (inStep 1#33 2#32 1#32) ∧ (inStep 1#33 2#32 1#32).seqMode ≠ .none) ∧
    (RunInv (inTrap 3199#12 11#32 19#5 .high 1#32) ∧ ticksLeft (inTrap 3199#12 11#32 19#5 .high 1#32) = 1) ∧
    (on.initState = .ready ∧ active on = false ∧ on.oeN = 0#1 ∧ on.seqMode = .none ∧
      (∃ t, exec (.step 2#2 0#32 1#32) on = .next t) ∧ ∃ t, exec (.step 2#2 1#32 1#32) on = .next t) ∧
    0#2 ≠ 3#2 ∧ ∃ t, exec (.stepTrapezoid 0#2 0#32 0#32) on = .next t :=
  ⟨⟨runInv_inStep, by decide⟩, ⟨runInv_inTrap, by decide +kernel⟩,
    ⟨rfl, rfl, rfl, rfl, exists_next (by decide), exists_next (by decide)⟩, by decide, exists_next (by decide)⟩

/-- A host turn with a motion command, and a firing of an exhausted generator. -/
theorem witness_NoPulseWhileDisabled :
    (RunInv { off with agenda := [.host], host := [.cmd (encode (.step 2#2 1#32 1#32))] } ∧ off.oeN = 1#1 ∧
      ∃ t, step { off with agenda := [.host], host := [.cmd (encode (.step 2#2 1#32 1#32))] } = .next t) ∧
    active { armedWith 2#32 1#32 2#32 0#32 with oeN := 1#1 } = false ∧
    ∃ t, step { armedWith 2#32 1#32 2#32 0#32 with oeN := 1#1, agenda := [.fire] } = .next t :=
  ⟨⟨runInv_off, rfl, exists_next (by decide)⟩, by decide, exists_next (by decide)⟩

theorem witness_QuiescentWritesNoPin :
    quiescent { armedWith 2#32 3#32 2#32 0#32 with host := [.read 0] } = true ∧
    (∀ e ∈ [Turn.tuTick, Turn.fire, Turn.host], e ≠ .reset) ∧
    (∀ w, Request.cmd w ∉ ({ armedWith 2#32 3#32 2#32 0#32 with host := [.read 0] } : State).host) ∧
    ∃ t, Sys2Proof.core.run [Turn.tuTick, Turn.fire, Turn.host].length
      { armedWith 2#32 3#32 2#32 0#32 with host := [.read 0], agenda := [.tuTick, .fire, .host] } = .next t :=
  ⟨by decide, by decide, by simp, ⟨_, rfl⟩⟩

theorem witness_TickAndFireCommute : RunInv { inTrap 0#12 10#32 0#5 .low 10#32 with
    timerRun := true, rateWritten := true, stepBudget := 2#32, stepsEmitted := 2#32, rateDivisor := 3#32 } := runInv_both

end Sys2Proof.Tests
end

section
/-! SUPPORT. Run to completion as a chain of enabled sequencer steps: the closed form of a STEP with delay 0 is such a
chain, the bound on the others is large enough, and after each none is enabled (10_state.md R34). -/

namespace Sys2Proof.Machine

open Relation

variable {s t : State}

/-! ### Chains of enabled sequencer steps -/

/-- One sequencer step, enabled when it is taken (R34). -/
def EnabledStep (s t : State) : Prop := seqEnabled s = true ∧ seqStep s = t

/-- A chain of enabled steps is some number of sequencer steps, each enabled when it is taken. -/
theorem exists_seqSteps_of_chain (h : ReflTransGen EnabledStep s t) :
    ∃ k, t = seqSteps k s ∧ ∀ j, j < k → seqEnabled (seqSteps j s) = true := by
  induction h with
  | refl => exact ⟨0, rfl, by simp⟩
  | tail _ hstep ih =>
    obtain ⟨k, rfl, hk⟩ := ih
    obtain ⟨he, rfl⟩ := hstep
    refine ⟨k + 1, rfl, fun j hj => ?_⟩
    rcases Nat.lt_succ_iff_lt_or_eq.mp hj with hlt | rfl
    · exact hk j hlt
    · exact he

theorem seqRun_chain (fuel : Nat) (s : State) : ReflTransGen EnabledStep s (seqRun fuel s) := by
  induction fuel generalizing s with
  | zero => exact .refl
  | succ n ih =>
    by_cases he : seqEnabled s = true
    · rw [seqRun_succ n he]
      exact .head ⟨he, rfl⟩ (ih _)
    · rw [seqRun_of_not_enabled _ (Bool.eq_false_iff.mpr he)]

theorem seqEnabled_iff : seqEnabled s = true ↔
    s.seqMode ≠ .none ∧ (s.seqPhase = .act ∨ (s.seqPhase = .wait ∧ s.waitCnt = 0#32)) := by
  cases hp : s.seqPhase <;> simp [seqEnabled, hp]

/-! ### A STEP with delay 0 -/

/-- The sequencer steps a STEP with delay 0 still takes: two for each toggle, and the end of the wait it may be in. -/
def burstSteps (s : State) : Nat := 2 * burstCount s + (if s.seqPhase = .act then 0 else 1)

theorem burstCount_wait (hp : s.seqPhase = .wait) : burstCount s = s.seqRemaining.toNat := by
  simp [burstCount, hp]

theorem burstCount_of_ne_zero (hr : s.seqRemaining ≠ 0#33) : burstCount s = s.seqRemaining.toNat := by
  simp [burstCount, hr]

/-- A toggle takes one from the count, also where the 33-bit counter stands at 0 and turns. -/
theorem burstCount_immAct (hp : s.seqPhase = .act) : burstCount s = burstCount (immAct s) + 1 := by
  rw [burstCount_wait (s := immAct s) rfl]
  change burstCount s = (s.seqRemaining - 1#33).toNat + 1
  by_cases hr : s.seqRemaining = 0#33
  · simp [burstCount, hp, hr]
  · rw [burstCount_of_ne_zero hr]
    bv_omega

theorem burstSteps_immAct (hp : s.seqPhase = .act) : burstSteps s = burstSteps (immAct s) + 1 := by
  have hp' : (immAct s).seqPhase = .wait := rfl
  simp only [burstSteps, hp, hp', burstCount_immAct hp, if_true, reduceCtorEq, if_false]
  omega

theorem burstSteps_wait (hp : s.seqPhase = .wait) (hr : s.seqRemaining ≠ 0#33) :
    burstSteps s = burstSteps { s with seqPhase := .act } + 1 := by
  simp [burstSteps, hp, burstCount_of_ne_zero hr, burstCount_of_ne_zero (s := { s with seqPhase := .act }) hr]

/-- A toggle made first leaves the net effect as it was. -/
theorem immBurst_immAct (hp : s.seqPhase = .act) : immBurst (immAct s) = immBurst s := by
  have hc := burstCount_immAct hp
  unfold immBurst
  generalize burstCount (immAct s) = n at hc
  cases n with
  | zero => simp [hc, immAct, levelAfter]
  | succ n => simp [hc, immAct, levelAfter_not, logToggles_logToggles, Nat.add_comm]

/-- The end of a wait, with a toggle to come, leaves the net effect as it was. -/
theorem immBurst_act (hr : s.seqRemaining ≠ 0#33) : immBurst { s with seqPhase := .act } = immBurst s := by
  simp [immBurst, burstCount_of_ne_zero hr, burstCount_of_ne_zero (s := { s with seqPhase := .act }) hr]

/-- The end of a wait, with no toggle to come, is the whole net effect. -/
theorem immBurst_done (hp : s.seqPhase = .wait) (hw : s.waitCnt = 0#32) (hr : s.seqRemaining = 0#33) :
    immBurst s = respond .ok { s with seqMode := .none } := by
  have hc : burstCount s = 0 := by simp [burstCount_wait hp, hr]
  simp [immBurst, hc, hp, hw, hr]

/-- The closed form of R126 is a chain of enabled sequencer steps. -/
theorem immBurst_chain (hm : s.seqMode = .imm) (hd : s.seqDelay = 0#32) (he : seqEnabled s = true) :
    ReflTransGen EnabledStep s (immBurst s) := by
  induction hk : burstSteps s using Nat.strong_induction_on generalizing s with
  | _ k ih =>
    cases hp : s.seqPhase with
    | act =>
      have hlt : burstSteps (immAct s) < k := by rw [← hk, burstSteps_immAct hp]; omega
      have he' : seqEnabled (immAct s) = true := seqEnabled_done (by simp [immAct, hm]) hd
      rw [← immBurst_immAct hp]
      exact .head ⟨he, seqStep_immAct hm hp⟩ (ih _ hlt hm hd he' rfl)
    | wait =>
      have hw : s.waitCnt = 0#32 := by simpa [hp] using (seqEnabled_iff.mp he).2
      have hstep := seqStep_immWaitDone hm hp
      by_cases hr : s.seqRemaining = 0#33
      · rw [immBurst_done hp hw hr]
        exact .single ⟨he, by simp [hstep, immWaitDone, hr]⟩
      · have hlt : burstSteps { s with seqPhase := .act } < k := by rw [← hk, burstSteps_wait hp hr]; omega
        have he' : seqEnabled { s with seqPhase := .act } = true := seqEnabled_act (by simp [hm]) rfl
        rw [← immBurst_act hr]
        exact .head ⟨he, by simp [hstep, immWaitDone, hr]⟩ (ih _ hlt hm hd he' rfl)

/-! ### A profile -/

/-- A bound on the sequencer steps a profile still takes: four for each index up to 3199, which a 12-bit index above it
reaches by turning, and what is left of the index in progress. -/
def trapSteps (s : State) : Nat :=
  4 * (3199#12 - s.trapIdx).toNat + (match s.trapHalf with | .low => 2 | .high => 0) +
    (match s.seqPhase with | .act => 2 | .wait => 1)

theorem trapSteps_le (s : State) : trapSteps s ≤ seqFuel := by
  have := (3199#12 - s.trapIdx).isLt
  unfold trapSteps seqFuel
  cases s.trapHalf <;> cases s.seqPhase <;> simp only <;> omega

theorem trapSteps_pos (s : State) : 0 < trapSteps s := by
  unfold trapSteps
  cases s.seqPhase <;> simp only <;> omega

/-- A pin write of a profile begins a wait of the same index and the same half. -/
theorem trapAct_keeps (s : State) : (trapAct s).seqMode = s.seqMode ∧ (trapAct s).seqPhase = .wait ∧
    (trapAct s).trapIdx = s.trapIdx ∧ (trapAct s).trapHalf = s.trapHalf := by
  unfold trapAct trapAdjust
  cases hh : s.trapHalf with
  | low => simp only; split <;> simp [trapWait, hh]
  | high => simp [trapWait, hh]

/-- The end of the last index ends the profile, and the end of any other takes one from the bound. -/
theorem trapIndexDone_steps (hm : s.seqMode = .trap) (hp : s.seqPhase = .wait) (hh : s.trapHalf = .high) :
    (trapIndexDone s).seqMode = .none ∨
      ((trapIndexDone s).seqMode = .trap ∧ trapSteps s = trapSteps (trapIndexDone s) + 1) := by
  by_cases hi : s.trapIdx.toNat + 1 = Config.trapTotal
  · exact .inl (by simp [trapIndexDone, hi])
  · refine .inr ⟨by simp [trapIndexDone, hi, hm], ?_⟩
    have hne : s.trapIdx.toNat + 1 ≠ 3200 := hi
    simp only [trapSteps, trapIndexDone, if_neg hi, hp, hh]
    bv_omega

/-- A sequencer step of a profile ends it, or takes one from the bound. -/
theorem seqStep_trapSteps (hm : s.seqMode = .trap) :
    (seqStep s).seqMode = .none ∨ ((seqStep s).seqMode = .trap ∧ trapSteps s = trapSteps (seqStep s) + 1) := by
  cases hp : s.seqPhase with
  | act =>
    obtain ⟨hm', hp', hi', hh'⟩ := trapAct_keeps s
    rw [seqStep_trapAct hm hp]
    exact .inr ⟨hm'.trans hm, by simp only [trapSteps, hp, hp', hi', hh']⟩
  | wait =>
    rw [seqStep_trapWaitDone hm hp]
    cases hh : s.trapHalf with
    | low => exact .inr (by simp [trapWaitDone, hh, hm, hp, trapSteps])
    | high =>
      have hd : trapWaitDone s = trapIndexDone s := by simp [trapWaitDone, hh]
      exact hd ▸ trapIndexDone_steps hm hp hh

/-- Fuel for as many steps as the bound says runs a profile until no step is enabled. -/
theorem seqRun_trap_complete {fuel : Nat} (hm : s.seqMode = .trap) (hf : trapSteps s ≤ fuel) :
    seqEnabled (seqRun fuel s) = false := by
  induction fuel generalizing s with
  | zero => exact absurd (trapSteps_pos s) (by omega)
  | succ n ih =>
    by_cases he : seqEnabled s = true
    · rw [seqRun_succ n he]
      rcases seqStep_trapSteps hm with hend | ⟨hm', hlt⟩
      · have hoff := seqEnabled_idle hend
        rwa [seqRun_of_not_enabled n hoff]
      · exact ih hm' (by omega)
    · have hoff := Bool.eq_false_iff.mpr he
      rwa [seqRun_of_not_enabled _ hoff]

/-! ### Run to completion -/

/-- A run to completion is a chain of enabled sequencer steps. -/
theorem runToCompletion_chain (s : State) : ReflTransGen EnabledStep s (runToCompletion s) := by
  unfold runToCompletion
  split
  · next h =>
    split
    · next he => exact immBurst_chain h.1 h.2 he
    · exact .refl
  · exact seqRun_chain _ s

/-- A STEP with a delay of at least 1 runs until no sequencer step is enabled: its next toggle begins a wait. -/
theorem runToCompletion_imm_complete (hm : s.seqMode = .imm) (hd : s.seqDelay ≠ 0#32) (he : seqEnabled s = true) :
    seqEnabled (runToCompletion s) = false := by
  cases hp : s.seqPhase with
  | act =>
    rw [runToCompletion_immAct hm hp hd]
    exact seqEnabled_waiting rfl hd
  | wait =>
    have hw : s.waitCnt = 0#32 := by simpa [hp] using (seqEnabled_iff.mp he).2
    rw [runToCompletion_immWaitDone hm hp hw hd]
    split
    · exact seqEnabled_idle rfl
    · exact seqEnabled_waiting rfl hd

/-- After a run to completion no sequencer step is enabled. -/
@[simp] theorem seqEnabled_runToCompletion (s : State) : seqEnabled (runToCompletion s) = false := by
  by_cases he : seqEnabled s = true
  · cases hm : s.seqMode with
    | none => exact absurd hm (seqEnabled_iff.mp he).1
    | imm =>
      by_cases hd : s.seqDelay = 0#32
      · rw [runToCompletion_burst hm hd he]
        exact seqEnabled_idle rfl
      · exact runToCompletion_imm_complete hm hd he
    | trap =>
      have hrun : runToCompletion s = seqRun seqFuel s := by simp [runToCompletion, hm]
      rw [hrun]
      exact seqRun_trap_complete hm (trapSteps_le s)
  · have hoff := Bool.eq_false_iff.mpr he
    rwa [runToCompletion_of_not_enabled hoff]

theorem seqEnabled_tuTick (s : State) : seqEnabled (tuTick s) = false := seqEnabled_runToCompletion _

theorem seqEnabled_startStep (count delay : Word) (hm : s.seqMode = .none) :
    seqEnabled (startStep count delay s) = false := by
  unfold startStep
  split
  · exact seqEnabled_idle hm
  · exact seqEnabled_runToCompletion _

/-- No sequencer step is enabled after a command that an idle block accepts. -/
theorem seqEnabled_exec {i : Instr} (hm : s.seqMode = .none) (h : exec i s = .next t) : seqEnabled t = false := by
  rcases exec_next h with rfl | rfl | ⟨heff, -, -⟩
  · exact seqEnabled_idle hm
  · exact seqEnabled_idle hm
  · cases i with
    | init =>
      obtain ⟨-, rfl⟩ := heff
      exact seqEnabled_idle hm
    | enable =>
      obtain ⟨-, -, rfl⟩ := heff
      exact seqEnabled_idle hm
    | step _ count delay =>
      obtain ⟨-, -, -, rfl⟩ := heff
      exact seqEnabled_startStep count delay hm
    | stepTimer =>
      obtain ⟨-, -, rfl⟩ := heff
      exact seqEnabled_idle hm
    | stepTrapezoid =>
      obtain ⟨-, -, -, rfl⟩ := heff
      exact seqEnabled_runToCompletion _
    | timerStop =>
      obtain ⟨-, rfl⟩ := heff
      exact seqEnabled_idle hm

/-- Settles O43: every run to completion is a chain of enabled steps, and none is enabled after it. -/
theorem runToCompletionIsSteps : Obligations.RunToCompletionIsSteps := by
  unfold Obligations.RunToCompletionIsSteps
  refine ⟨fun s => seqEnabled_iff, fun s => ?_, seqEnabled_tuTick, fun i s t hm h => seqEnabled_exec hm h⟩
  obtain ⟨k, hrun, henabled⟩ := exists_seqSteps_of_chain (runToCompletion_chain s)
  exact ⟨k, hrun, henabled, seqEnabled_runToCompletion s⟩

end Sys2Proof.Machine
end

section
/-! SUPPORT. The time-unit tick and the length of a wait (10_state.md R33), and the port while a blocking command is in
progress (10_state.md R31). -/

namespace Sys2Proof.Machine

variable {s : State}

/-! ### The tick -/

/-- A tick counts where a command in progress waits with ticks to go, and then runs to completion. -/
theorem tuTick_eq (s : State) : tuTick s = runToCompletion
    (if s.seqMode ≠ .none ∧ s.seqPhase = .wait ∧ 0#32 < s.waitCnt
      then { s with waitCnt := s.waitCnt - 1#32, log := .tuTick :: s.log }
      else { s with log := .tuTick :: s.log }) := by
  have hcond : (busy s && s.seqPhase == .wait && decide (0#32 < s.waitCnt)) = true ↔
      s.seqMode ≠ .none ∧ s.seqPhase = .wait ∧ 0#32 < s.waitCnt := by
    cases hp : s.seqPhase <;> simp
  exact congrArg runToCompletion (if_congr hcond rfl rfl)

theorem sameRegisters_observe (o : Obs) (s : State) : SameRegisters s (observe o s) := by
  simp [SameRegisters, SamePins, SameControl, SameRateProgram, SameSequencer]

/-- Fewer ticks than a wait has to go only count. -/
theorem ticks_waiting (hm : s.seqMode ≠ .none) (hp : s.seqPhase = .wait) {k : Nat} (hk : k < s.waitCnt.toNat) :
    ticks k s = { s with
      waitCnt := s.waitCnt - BitVec.ofNat 32 k, log := List.replicate k .tuTick ++ s.log } := by
  induction k with
  | zero => simp [ticks]
  | succ k ih =>
    have hind := ih (by omega)
    have hcnt : 1 < (ticks k s).waitCnt.toNat := by
      rw [hind]
      bv_omega
    have hnext : s.waitCnt - BitVec.ofNat 32 k - 1#32 = s.waitCnt - BitVec.ofNat 32 (k + 1) := by
      rw [BitVec.sub_sub, BitVec.ofNat_add]
    rw [ticks, tuTick_waiting (by rw [hind]; exact hm) (by rw [hind]; exact hp) hcnt, hind]
    simp only [observe, hnext, List.replicate_succ, List.cons_append]

/-- Settles O44: by the two kinds of tick of a wait, and an induction over the ticks that only count. -/
theorem waitsAreExact : Obligations.WaitsAreExact := by
  unfold Obligations.WaitsAreExact
  refine ⟨tuTick_eq, fun s hm => ?_, fun s k hm hp hk => ticks_waiting hm hp hk,
    fun s hm hp hw => tuTick_last hm hp hw, fun s hm hp hw => seqEnabled_done hm hw⟩
  rw [tuTick_idle hm]
  exact sameRegisters_observe _ s

/-! ### The busy port -/

/-- While a blocking command is in progress the host's turn passes. -/
theorem hostTurn_busy (h : s.seqMode ≠ .none) : hostTurn s = .next s := by
  simp [hostTurn, h]

theorem fireTurn_armed (h : s.timerRun = true) : fireTurn s = fire s := by
  simp [fireTurn, armed, h]

/-- Settles O45: each of the three steps is its agent's turn. -/
theorem busyHoldsPort : Obligations.BusyHoldsPort := by
  unfold Obligations.BusyHoldsPort
  intro s rest hm
  refine ⟨fun ha => ?_, fun ha => step_turn ha, fun ha hr => ?_⟩
  · rw [step_turn ha]
    exact hostTurn_busy hm
  · rw [step_turn ha]
    exact congrArg Host.Outcome.next (fireTurn_armed hr)

end Sys2Proof.Machine
end

section
/-! SUPPORT. The register space (20_memory.md R60 to R64): what a host read returns and leaves unchanged, and which events
and commands write a register. -/

namespace Sys2Proof.Machine

variable {s t : State}

/-! ### The host's read -/

/-- Every field of six packed fields of these widths is read back as it was put in. The library's lemmas need the total width
kept as the sum of the fields' widths. -/
theorem packed_fields (z : BitVec 26) (i : BitVec 2) (d p o r : BitVec 1) :
    (z ++ i ++ d ++ p ++ o ++ r).extractLsb' 6 26 = z ∧ (z ++ i ++ d ++ p ++ o ++ r).extractLsb' 4 2 = i ∧
      (z ++ i ++ d ++ p ++ o ++ r).extractLsb' 3 1 = d ∧ (z ++ i ++ d ++ p ++ o ++ r).extractLsb' 2 1 = p ∧
      (z ++ i ++ d ++ p ++ o ++ r).extractLsb' 1 1 = o ∧ (z ++ i ++ d ++ p ++ o ++ r).extractLsb' 0 1 = r := by
  simp [-Nat.reduceAdd, BitVec.extractLsb'_append_eq_of_le, BitVec.extractLsb'_append_eq_of_add_le]

/-- The fields of `STATUS` (R61), from bit 31 down. -/
theorem statusWord_fields (s : State) :
    (statusWord s).extractLsb' 6 26 = 0#26 ∧ (statusWord s).extractLsb' 4 2 = initStateBits s.initState ∧
      (statusWord s).extractLsb' 3 1 = s.dirPin ∧ (statusWord s).extractLsb' 2 1 = s.stepPin ∧
      (statusWord s).extractLsb' 1 1 = s.oeN ∧ (statusWord s).extractLsb' 0 1 = BitVec.ofBool s.timerRun :=
  packed_fields _ _ _ _ _ _

/-- A read of `STATUS`, or of the RateProgram once it is written, returns the register's content. -/
theorem regRead_content {n : Nat} {v : Word} (hv : regContent n s = some v) (hw : n ≠ 0 → s.rateWritten = true) :
    regRead n s = .next (observe (.readValue n v) s) := by
  have hu : regUnwritten n s = false := by simpa [regUnwritten] using hw
  simp [regRead, hv, hu]

/-- A step with the port ready and a read at it that returns the register's content. -/
theorem step_read {n : Nat} {v : Word} {rest : List Turn} {q : List Request} (hm : s.seqMode = .none)
    (ha : s.agenda = .host :: rest) (hh : s.host = .read n :: q) (hv : regContent n s = some v)
    (hw : n ≠ 0 → s.rateWritten = true) :
    step s = .next { s with agenda := rest, host := q, log := .readValue n v :: s.log } := by
  rw [step_host ha hm hh]
  have hv' : regContent n { s with agenda := rest, host := q } = some v := hv
  exact regRead_content hv' hw

/-- A step on the host's turn during a blocking command takes nothing. -/
theorem step_host_busy {rest : List Turn} (hm : s.seqMode ≠ .none) (ha : s.agenda = .host :: rest) :
    step s = .next { s with agenda := rest } := by
  rw [step_turn ha]
  exact hostTurn_busy hm

/-- Settles O31: register by register, the fields of `STATUS` from `statusWord_fields`. -/
theorem registerMap : Obligations.RegisterMap := by
  unfold Obligations.RegisterMap
  refine ⟨fun s n rest q hm ha _ => step_host_busy hm ha, fun s n rest q hm ha hh hn hw => ?_⟩
  match n, hn with
  | 0, _ =>
    obtain ⟨hzero, hinit, hdir, hstep, hoe, hrun⟩ := statusWord_fields s
    refine ⟨statusWord s, step_read hm ha hh rfl hw, fun _ => ⟨hzero, ?_, hdir, hstep, hoe, ?_⟩, by simp⟩
    · rw [hinit]
      cases s.initState <;> rfl
    · rw [hrun]
      cases s.timerRun <;> rfl
  | 1, _ => exact ⟨s.stepBudget, step_read hm ha hh rfl hw, by simp⟩
  | 2, _ => exact ⟨s.rateDivisor, step_read hm ha hh rfl hw, by simp⟩
  | 3, _ => exact ⟨s.stepsEmitted, step_read hm ha hh rfl hw, by simp⟩
  | 4, _ => exact ⟨s.divisorCounter, step_read hm ha hh rfl hw, by simp⟩

/-! ### The writers of registers -/

/-- A host read leaves every register, the requests behind it and the order of events. -/
theorem regRead_frame {n : Nat} (h : regRead n s = .next t) :
    SameRegisters s t ∧ t.host = s.host ∧ t.agenda = s.agenda := by
  obtain ⟨v, k, -, rfl⟩ := regRead_next h
  simp [SameRegisters, SamePins, SameControl, SameRateProgram, SameSequencer]

/-- What an event takes from the order of events and from the requests is no register. -/
theorem sameRegisters_agenda_host (s : State) (rest : List Turn) (q : List Request) :
    SameRegisters s { s with agenda := rest, host := q } := by
  simp [SameRegisters, SamePins, SameControl, SameRateProgram, SameSequencer]

/-- No `Fire` occurs while the timer is stopped (10_state.md R25). -/
theorem fireTurn_stopped (h : s.timerRun = false) : fireTurn s = s := by
  simp [fireTurn, armed, h]

/-- A step that changes a register is a reset, a tick, a firing while armed, or the acceptance of a command word. -/
theorem step_writes_register (h : step s = .next t) (hne : ¬SameRegisters s t) :
    ∃ rest, s.agenda = .reset :: rest ∨ s.agenda = .tuTick :: rest ∨
      (s.agenda = .fire :: rest ∧ s.timerRun = true) ∨ (s.agenda = .host :: rest ∧ ∃ w q, s.host = .cmd w :: q) := by
  rcases step_cases h with ⟨-, rfl⟩ | ⟨rest, ha, -⟩ | ⟨rest, ha, -⟩ | ⟨rest, ha, rfl⟩ | ⟨rest, ha, -, rfl⟩ |
    ⟨rest, w, q, i, ha, -, hh, -, -⟩ | ⟨rest, n, q, ha, -, hh, hread⟩
  · exact absurd (sameRegisters_agenda_host t t.agenda t.host) hne
  · exact ⟨rest, .inl ha⟩
  · exact ⟨rest, .inr (.inl ha)⟩
  · refine ⟨rest, .inr (.inr (.inl ⟨ha, ?_⟩))⟩
    by_contra hrun
    have hstop : ({ s with agenda := rest } : State).timerRun = false := Bool.eq_false_iff.mpr hrun
    rw [fireTurn_stopped hstop] at hne
    exact hne (sameRegisters_agenda_host s rest s.host)
  · exact absurd (sameRegisters_agenda_host s rest s.host) hne
  · exact ⟨rest, .inr (.inr (.inr ⟨ha, w, q, hh⟩))⟩
  · exact absurd (regRead_frame hread).1 hne

theorem SeqFrame.sameRateProgram (h : SeqFrame s t) : SameRateProgram s t :=
  ⟨h.stepBudget, h.rateDivisor, h.stepsEmitted, h.divisorCounter⟩

/-- The start of a STEP leaves the RateProgram. -/
theorem startStep_sameRateProgram (count delay : Word) (s : State) : SameRateProgram s (startStep count delay s) := by
  unfold startStep
  split
  · exact ⟨rfl, rfl, rfl, rfl⟩
  · exact (runToCompletion_frame (loadStep count delay (dirSet (dirOf count) s))).sameRateProgram

/-- A command leaves the RateProgram, or it is a STEP_TIMER that arms. -/
theorem exec_sameRateProgram_or_arms {i : Instr} (h : exec i s = .next t) :
    SameRateProgram s t ∨
      ∃ argc budget divisor, i = .stepTimer argc budget divisor ∧ t = respond .ok (arm budget divisor s) := by
  rcases exec_next h with rfl | rfl | ⟨heff, -, -⟩
  · exact .inl ⟨rfl, rfl, rfl, rfl⟩
  · exact .inl ⟨rfl, rfl, rfl, rfl⟩
  · cases i with
    | init =>
      obtain ⟨-, rfl⟩ := heff
      exact .inl ⟨rfl, rfl, rfl, rfl⟩
    | enable =>
      obtain ⟨-, -, rfl⟩ := heff
      exact .inl ⟨rfl, rfl, rfl, rfl⟩
    | step _ count delay =>
      obtain ⟨-, -, -, rfl⟩ := heff
      exact .inl (startStep_sameRateProgram count delay s)
    | stepTimer argc budget divisor =>
      obtain ⟨-, -, rfl⟩ := heff
      exact .inr ⟨argc, budget, divisor, rfl, rfl⟩
    | stepTrapezoid =>
      obtain ⟨-, -, -, rfl⟩ := heff
      exact .inl (runToCompletion_frame (loadProfile (dirSet .clockwise s))).sameRateProgram
    | timerStop =>
      obtain ⟨-, rfl⟩ := heff
      exact .inl ⟨rfl, rfl, rfl, rfl⟩

/-- Settles O33: from the cases of a read, of a step and of an accepted command. -/
theorem hostWritesNoRegister : Obligations.HostWritesNoRegister := by
  unfold Obligations.HostWritesNoRegister
  refine ⟨fun n s t h => regRead_frame h, fun s t h hne => step_writes_register h hne, fun i s t h hne => ?_⟩
  rcases exec_sameRateProgram_or_arms h with ⟨-, -, hemitted, hcounter⟩ | ⟨argc, budget, divisor, rfl, rfl⟩
  · rcases hne with hne | hne
    · exact absurd hemitted hne
    · exact absurd hcounter hne
  · exact ⟨rfl, rfl, rfl, rfl⟩

end Sys2Proof.Machine
end

section
/-! SUPPORT. The decoder, field by field (30_encoding.md R86, R87): which words are `Illegal` and what every other word
decodes to; and the refusal or the report that the acceptance of a word can bring at once. -/

namespace Sys2Proof

variable {w : CommandWord}

/-- Everything the decoder can answer, in the order it tests (R86). -/
theorem decode_cases (w : CommandWord) :
    (w.rsv ≠ 0#2 ∧ decode w = .error .reservedBits) ∨
    (w.argc = 3#2 ∧ decode w = .error .reservedArgc) ∨
    ((w.op = 0#4 ∨ 7 ≤ w.op.toNat) ∧ decode w = .error .reservedOpcode) ∨
    (w.rsv = 0#2 ∧ w.argc ≠ 3#2 ∧ w.op ≠ 0#4 ∧ w.op.toNat < 7 ∧
      ∃ o : Opcode, o.code = w.op ∧ decode w = .ok (o.instr w.argc w.arg0 w.arg1)) := by
  by_cases hr : w.rsv = 0#2
  · by_cases ha : w.argc = 3#2
    · exact .inr (.inl ⟨ha, by simp [decode, hr, ha]⟩)
    · rcases ofCode_cases w.op with ⟨hnone, hop⟩ | ⟨o, hsome, hcode, hne, hlt⟩
      · exact .inr (.inr (.inl ⟨hop, by simp [decode, hr, ha, hnone]⟩))
      · exact .inr (.inr (.inr ⟨hr, ha, hne, hlt, o, hcode, by simp [decode, hr, ha, hsome]⟩))
  · exact .inl ⟨hr, by simp [decode, hr]⟩

/-- The `Illegal` words of R87. -/
theorem decode_error_iff : (∃ e, decode w = .error e) ↔
    w.op = 0#4 ∨ 7 ≤ w.op.toNat ∨ w.rsv ≠ 0#2 ∨ w.argc = 3#2 := by
  rcases decode_cases w with ⟨hr, he⟩ | ⟨ha, he⟩ | ⟨hop, he⟩ | ⟨hr, ha, hne, hlt, o, -, hok⟩
  · exact iff_of_true ⟨_, he⟩ (.inr (.inr (.inl hr)))
  · exact iff_of_true ⟨_, he⟩ (.inr (.inr (.inr ha)))
  · exact iff_of_true ⟨_, he⟩ (hop.imp_right .inl)
  · refine iff_of_false (by simp [hok]) ?_
    simp [hr, ha, hne, hlt]

/-- Every other word decodes to the command of its `op`, with its own fields. -/
theorem decode_legal (hr : w.rsv = 0#2) (ha : w.argc ≠ 3#2) (hne : w.op ≠ 0#4) (hlt : w.op.toNat < 7) :
    ∃ o : Opcode, o.code = w.op ∧ decode w = .ok (o.instr w.argc w.arg0 w.arg1) := by
  rcases decode_cases w with ⟨h, -⟩ | ⟨h, -⟩ | ⟨h, -⟩ | ⟨-, -, -, -, hok⟩
  · exact absurd hr h
  · exact absurd h ha
  · exact absurd h (by simp [hne, hlt])
  · exact hok

/-- The mask of the opcode table keeps `op` and `rsv`: where `rsv` is 0, what it leaves of a word is its `op`. -/
theorem and_opcodeMask (hr : w.rsv = 0#2) : w &&& 0xFC0000000000000000#72 = (w.op.setWidth 72) <<< 68 := by
  have hmask : 0xFC0000000000000000#72 = BitVec.allOnes 72 <<< 66 := by decide
  have hzero : w.toNat / 2 ^ 66 % 2 ^ 2 = 0 := by
    simpa [CommandWord.rsv, Nat.shiftRight_eq_div_pow] using congrArg BitVec.toNat hr
  rw [hmask, ← BitVec.shiftLeft_ushiftRight]
  apply BitVec.eq_of_toNat_eq
  simp only [CommandWord.op, BitVec.toNat_shiftLeft, BitVec.toNat_ushiftRight, BitVec.toNat_setWidth,
    BitVec.extractLsb'_toNat, Nat.shiftLeft_eq, Nat.shiftRight_eq_div_pow]
  omega

end Sys2Proof

namespace Sys2Proof.Machine

variable {w : CommandWord} {s : State}

/-- The acceptance of an `Illegal` word is refused by name (R87, U8). -/
theorem acceptWord_illegal {e : DecodeError} (h : decode w = .error e) : acceptWord w s = .refused (.illegalWord e) := by
  simp [acceptWord, h]

theorem acceptWord_legal {i : Instr} (h : decode w = .ok i) : acceptWord w s = exec i s := by
  simp [acceptWord, h]

/-- Every command runs its own effect behind the common checks (40_port_and_gate.md R109). -/
theorem exec_eq_checked (i : Instr) (s : State) : ∃ needsReady broken gated,
    exec i s = checked i.opcode needsReady broken gated i.argc s (ownEffect i s) := by
  cases i with
  | init => exact ⟨false, notWhileArmed s, false, rfl⟩
  | enable => exact ⟨true, none, false, rfl⟩
  | step => exact ⟨true, oneDiscipline s, true, rfl⟩
  | stepTimer => exact ⟨true, none, true, rfl⟩
  | stepTrapezoid => exact ⟨true, oneDiscipline s, true, rfl⟩
  | timerStop => exact ⟨true, none, false, rfl⟩

/-- A command with too small an `argc` reports so and does nothing else. -/
theorem exec_missingArgument {i : Instr} (ha : i.argc ≠ 3#2) (hlt : i.argc.toNat < i.opcode.argsRequired) :
    exec i s = .next (respond .missingArgument s) := by
  obtain ⟨needsReady, broken, gated, he⟩ := exec_eq_checked i s
  rw [he]
  simp [checked, ha, hlt, raise, conditionResponse]

/-- Settles O4: from the cases of the decoder. -/
theorem illegalWordsRefused : Obligations.IllegalWordsRefused := by
  unfold Obligations.IllegalWordsRefused
  exact fun w => ⟨decode_error_iff, fun e s h => acceptWord_illegal h⟩

/-- Settles O3: from the cases of the decoder, the mask of the table, and the first of the common checks. -/
theorem decoderReadsEveryWord : Obligations.DecoderReadsEveryWord := by
  unfold Obligations.DecoderReadsEveryWord
  refine fun w => ⟨fun h => decode_error_iff.mpr (.inr (.inr h)),
    fun h => decode_error_iff.mpr (h.imp_right .inl), fun hr ha hne hlt => ?_⟩
  obtain ⟨o, hcode, hok⟩ := decode_legal hr ha hne hlt
  obtain ⟨hop, hargc, harg0, harg1⟩ := opcode_instr o w.argc w.arg0 w.arg1
  refine ⟨_, hok, (congrArg Opcode.code hop).trans hcode, hargc, harg0, harg1, ?_, fun s hsmall => ?_⟩
  · rw [hop, hcode]
    exact and_opcodeMask hr
  · rw [acceptWord_legal hok]
    exact exec_missingArgument (by rwa [hargc]) hsmall

end Sys2Proof.Machine
end

section
/-! SUPPORT. Responses (30_encoding.md R90): every sequencer step keeps what is delivered and owed, and the one that ends a
command delivers `OK`; so do a run to completion, a tick and a firing, and an accepted command adds one. -/

namespace Sys2Proof.Machine

open Relation

variable {s t : State}

/-- The responses delivered and the one owed by a command in progress. -/
def responsesDue (s : State) : Nat := responsesIn s.log + responsesOwed s

theorem responsesOwed_idle (hm : s.seqMode = .none) : responsesOwed s = 0 := by
  simp [responsesOwed, busy_eq_false.mpr hm]

theorem responsesOwed_busy (hm : s.seqMode ≠ .none) : responsesOwed s = 1 := by
  simp [responsesOwed, busy_eq_true.mpr hm]

/-- A change that leaves the mode and delivers nothing leaves what is due. -/
theorem responsesDue_congr (hm : t.seqMode = s.seqMode) (hr : responsesIn t.log = responsesIn s.log) :
    responsesDue t = responsesDue s := by
  simp [responsesDue, responsesOwed, busy, hm, hr]

/-- The delivery of a response in an idle block adds one. -/
theorem responsesDue_respond (r : Response) (hm : s.seqMode = .none) :
    responsesDue (respond r s) = responsesIn s.log + 1 := by
  have hm' : (respond r s).seqMode = .none := hm
  rw [responsesDue, responsesOwed_idle hm']
  rfl

/-! ### The sequencer -/

/-- A stretch of a command in progress answers as it should: what is due stays, and where the command has ended, the
response `OK` came last. -/
structure Answers (s t : State) : Prop where
  due : responsesDue t = responsesDue s
  ended : t.seqMode = .none → t.log.head? = some (.response .ok)

/-- A sequencer step that ends no command and delivers nothing. -/
theorem Answers.of_goesOn (hbusy : s.seqMode ≠ .none) (hm : t.seqMode = s.seqMode)
    (hr : responsesIn t.log = responsesIn s.log) : Answers s t :=
  ⟨responsesDue_congr hm hr, fun hend => absurd (hm.symm.trans hend) hbusy⟩

/-- A sequencer step that ends the command and delivers `OK`. -/
theorem Answers.of_respond (hbusy : s.seqMode ≠ .none) (hend : t.seqMode = .none) (hlog : t.log = s.log) :
    Answers s (respond .ok t) where
  due := by rw [responsesDue_respond .ok hend, responsesDue, responsesOwed_busy hbusy, hlog]
  ended _ := rfl

theorem immWaitDone_answers (hm : s.seqMode ≠ .none) : Answers s (immWaitDone s) := by
  unfold immWaitDone
  split
  · exact .of_respond hm rfl rfl
  · exact .of_goesOn hm rfl rfl

theorem trapAct_answers (hm : s.seqMode ≠ .none) : Answers s (trapAct s) := by
  refine .of_goesOn hm (trapAct_keeps s).1 ?_
  unfold trapAct trapAdjust
  split
  · split <;> rfl
  · rfl

theorem trapIndexDone_answers (hm : s.seqMode ≠ .none) : Answers s (trapIndexDone s) := by
  simp only [trapIndexDone]
  split
  · exact .of_respond hm rfl rfl
  · exact .of_goesOn hm rfl rfl

/-- A sequencer step of a command in progress. -/
theorem seqStep_answers (hm : s.seqMode ≠ .none) : Answers s (seqStep s) := by
  unfold seqStep
  split
  · next hidle => exact absurd hidle hm
  · exact .of_goesOn hm rfl (responsesIn_logToggles 1 s.log)
  · exact immWaitDone_answers hm
  · exact trapAct_answers hm
  · unfold trapWaitDone
    split
    · exact .of_goesOn hm rfl rfl
    · exact trapIndexDone_answers hm

/-- A chain of enabled sequencer steps: what is due stays at each, and only its last one can end the command. -/
theorem chain_answers (h : ReflTransGen EnabledStep s t) :
    responsesDue t = responsesDue s ∧
      (s.seqMode ≠ .none → t.seqMode = .none → t.log.head? = some (.response .ok)) := by
  induction h with
  | refl => exact ⟨rfl, fun hbusy hidle => absurd hidle hbusy⟩
  | tail _ hstep ih =>
    obtain ⟨he, rfl⟩ := hstep
    have hlast := seqStep_answers (seqEnabled_iff.mp he).1
    exact ⟨hlast.due.trans ih.1, fun _ => hlast.ended⟩

theorem responsesDue_runToCompletion (s : State) : responsesDue (runToCompletion s) = responsesDue s :=
  (chain_answers (runToCompletion_chain s)).1

/-! ### Ticks and firings -/

/-- What a tick counts is no response, and the mode stays. -/
theorem countTick_keeps (s : State) : (countTick s).seqMode = s.seqMode ∧ (countTick s).log = s.log := by
  unfold countTick
  split <;> exact ⟨rfl, rfl⟩

theorem responsesDue_tuTick (s : State) : responsesDue (tuTick s) = responsesDue s := by
  obtain ⟨hmode, hlog⟩ := countTick_keeps (observe .tuTick s)
  rw [tuTick, responsesDue_runToCompletion]
  exact responsesDue_congr hmode (by rw [hlog]; rfl)

/-- A tick that ends a command ends with its response. -/
theorem tuTick_ends_ok (hm : s.seqMode ≠ .none) (hend : (tuTick s).seqMode = .none) :
    (tuTick s).log.head? = some (.response .ok) := by
  have hcount : (countTick (observe .tuTick s)).seqMode ≠ .none := by rwa [(countTick_keeps _).1]
  exact (chain_answers (runToCompletion_chain _)).2 hcount hend

theorem responsesDue_fire (s : State) : responsesDue (fire s) = responsesDue s := by
  refine responsesDue_congr (fire_frame s).sequencer.1 ?_
  by_cases h : s.stepsEmitted < s.stepBudget ∧ s.divisorCounter = 0#32
  · rw [fire_toggles h.1 h.2]
    rfl
  · rw [fire_divides h]
    rfl

/-! ### Commands -/

/-- A STEP accepted by an idle block: its response is delivered at once, or it is owed and a run to completion keeps it. -/
theorem responsesDue_startStep (count delay : Word) (hm : s.seqMode = .none) :
    responsesDue (startStep count delay s) = responsesIn s.log + 1 := by
  unfold startStep
  split
  · exact responsesDue_respond (s := dirSet (dirOf count) s) .ok hm
  · rw [responsesDue_runToCompletion]
    rfl

/-- A STEP_TRAPEZOID accepted by a block owes its response, and a run to completion keeps it. -/
theorem responsesDue_startProfile (s : State) :
    responsesDue (runToCompletion (loadProfile (dirSet .clockwise s))) = responsesIn s.log + 1 := by
  rw [responsesDue_runToCompletion]
  rfl

/-- A command accepted by an idle block adds one response, and unless it is one of the two blocking commands the block is
idle again. -/
theorem exec_answers {i : Instr} (hm : s.seqMode = .none) (h : exec i s = .next t) :
    responsesDue t = responsesIn s.log + 1 ∧ (i.opcode ≠ .step → i.opcode ≠ .stepTrapezoid → t.seqMode = .none) := by
  rcases exec_next h with rfl | rfl | ⟨heff, -, -⟩
  · exact ⟨responsesDue_respond _ hm, fun _ _ => hm⟩
  · exact ⟨responsesDue_respond _ hm, fun _ _ => hm⟩
  · cases i with
    | init =>
      obtain ⟨-, rfl⟩ := heff
      exact ⟨responsesDue_respond (s := { s with initState := _, draws := _ }) _ hm, fun _ _ => hm⟩
    | enable _ state =>
      obtain ⟨-, -, rfl⟩ := heff
      exact ⟨responsesDue_respond (s := oeWrite _ s) .ok hm, fun _ _ => hm⟩
    | step _ count delay =>
      obtain ⟨-, -, -, rfl⟩ := heff
      exact ⟨responsesDue_startStep count delay hm, fun hne => absurd rfl hne⟩
    | stepTimer _ budget divisor =>
      obtain ⟨-, -, rfl⟩ := heff
      exact ⟨responsesDue_respond (s := arm budget divisor s) .ok hm, fun _ _ => hm⟩
    | stepTrapezoid =>
      obtain ⟨-, -, -, rfl⟩ := heff
      exact ⟨responsesDue_startProfile s, fun _ hne => absurd rfl hne⟩
    | timerStop =>
      obtain ⟨-, rfl⟩ := heff
      exact ⟨responsesDue_respond (s := { s with timerRun := false }) .ok hm, fun _ _ => hm⟩

/-- Settles O28: what is due grows by one in a command, and every tick and firing keeps it. -/
theorem oneResponsePerCommand : Obligations.OneResponsePerCommand := by
  unfold Obligations.OneResponsePerCommand
  exact ⟨⟨rfl, rfl, rfl, rfl⟩, fun i s t hm h => exec_answers hm h, responsesDue_tuTick, responsesDue_fire,
    fun s hm hend => tuTick_ends_ok hm hend⟩

end Sys2Proof.Machine
end

section
/-! SUPPORT. The signed count (30_encoding.md R85): its direction and its magnitude, and what STEP_TIMER and STEP make of
them. -/

namespace Sys2Proof.Machine

variable {s : State}

theorem dirOf_pos {c : Word} (h : 0 < c.toInt) : dirOf c = .clockwise := if_pos h

theorem dirOf_nonpos {c : Word} (h : c.toInt ≤ 0) : dirOf c = .counterClockwise := if_neg (Int.not_lt.mpr h)

/-- A STEP_TIMER with its arguments, in a block that is ready and enabled, arms. -/
theorem exec_stepTimer (budget divisor : Word) (hi : s.initState = .ready) (he : s.oeN = 0#1) :
    exec (.stepTimer 2#2 budget divisor) s = .next (respond .ok (arm budget divisor s)) := by
  change execStepTimer 2#2 budget divisor s = _
  rw [execStepTimer]
  exact checked_effect (by decide) (by decide) (fun _ => ready_eq_true.mpr hi) (fun _ => isEnabled_eq_true.mpr he)

/-- A STEP with its arguments, in a block that is ready and enabled and whose generator is not active, starts. -/
theorem exec_step (count delay : Word) (hi : s.initState = .ready) (he : s.oeN = 0#1) (ha : active s = false) :
    exec (.step 2#2 count delay) s = .next (startStep count delay s) := by
  change execStep 2#2 count delay s = _
  rw [execStep, oneDiscipline_eq_none.mpr ha]
  exact checked_effect (by decide) (by decide) (fun _ => ready_eq_true.mpr hi) (fun _ => isEnabled_eq_true.mpr he)

theorem startStep_dirPin (count delay : Word) (s : State) :
    (startStep count delay s).dirPin = dirLevel (dirOf count) := by
  unfold startStep
  split
  · rfl
  · exact (runToCompletion_frame _).dirPin

/-- The toggles made, and those a command in progress has still to make. -/
def togglesDue (s : State) : Nat := togglesIn s.log + if busy s then s.seqRemaining.toNat else 0

theorem togglesDue_idle (hm : s.seqMode = .none) : togglesDue s = togglesIn s.log := by
  simp [togglesDue, busy_eq_false.mpr hm]

theorem togglesDue_busy (hm : s.seqMode ≠ .none) : togglesDue s = togglesIn s.log + s.seqRemaining.toNat := by
  simp [togglesDue, busy_eq_true.mpr hm]

/-- A toggle of a STEP moves one from those to be made to those made. -/
theorem togglesDue_immAct (hm : s.seqMode ≠ .none) (hr : s.seqRemaining ≠ 0#33) :
    togglesDue (immAct s) = togglesDue s := by
  have hm' : (immAct s).seqMode ≠ .none := hm
  have hlog : togglesIn (immAct s).log = 1 + togglesIn s.log := togglesIn_logToggles 1 s.log
  have hrem : (immAct s).seqRemaining = s.seqRemaining - 1#33 := rfl
  rw [togglesDue_busy hm', togglesDue_busy hm, hlog, hrem]
  bv_omega

/-- A whole STEP with delay 0 makes all its toggles. -/
theorem togglesDue_immBurst (hm : s.seqMode ≠ .none) (hr : s.seqRemaining ≠ 0#33) :
    togglesDue (immBurst s) = togglesDue s := by
  have hend : (immBurst s).seqMode = .none := rfl
  have hn : s.seqRemaining.toNat ≠ 0 := by bv_omega
  have hlog : togglesIn (immBurst s).log = s.seqRemaining.toNat + togglesIn s.log := by
    simp [immBurst, burstCount_of_ne_zero hr, hn, togglesIn]
  rw [togglesDue_idle hend, togglesDue_busy hm, hlog, Nat.add_comm]

/-- The start of a STEP makes, or still has to make, twice the magnitude of its count. -/
theorem togglesDue_startStep (count delay : Word) (hm : s.seqMode = .none) :
    togglesDue (startStep count delay s) = togglesIn s.log + 2 * magOf count := by
  have hload : togglesDue (loadStep count delay (dirSet (dirOf count) s)) = togglesIn s.log + 2 * magOf count :=
    congrArg (togglesIn s.log + ·) (togglesOf_toNat count)
  unfold startStep
  split
  · next hzero =>
    have hidle : (respond .ok (dirSet (dirOf count) s)).seqMode = .none := hm
    rw [togglesDue_idle hidle, hzero]
    rfl
  · next hmag =>
    have hbusy : (loadStep count delay (dirSet (dirOf count) s)).seqMode ≠ .none := nofun
    have hr : togglesOf count ≠ 0#33 := fun h0 => by
      have htoggles := togglesOf_toNat count
      rw [h0, BitVec.toNat_ofNat] at htoggles
      omega
    rw [← hload]
    by_cases hd : delay = 0#32
    · rw [runToCompletion_burst rfl hd (seqEnabled_act hbusy rfl)]
      exact togglesDue_immBurst hbusy hr
    · rw [runToCompletion_immAct rfl rfl hd]
      exact togglesDue_immAct hbusy hr

/-- Settles O6: the magnitude is held exactly, and each of the two commands has its own effect in such a state. -/
theorem signedCountSplits : Obligations.SignedCountSplits := by
  unfold Obligations.SignedCountSplits
  refine fun c => ⟨dirOf_pos, dirOf_nonpos, rfl, magOf_le c, budgetOf_toNat c, togglesOf_toNat c, ?_, ?_⟩
  · rintro rfl
    decide
  · intro d s t hi he hm
    refine ⟨fun h => ?_, fun ha h => ?_⟩
    · rw [exec_stepTimer c d hi he] at h
      cases h
      exact ⟨rfl, budgetOf_toNat c⟩
    · rw [exec_step c d hi he ha] at h
      cases h
      exact ⟨startStep_dirPin c d s, togglesDue_startStep c d hm⟩

end Sys2Proof.Machine
end

section
/-! SUPPORT. The checks common to all commands as 40_port_and_gate.md R109 orders them: what they ask of each command, and
one lemma for each outcome. The results of INIT, ENABLE and TIMER_STOP follow from them (R104, R106, R107). -/

namespace Sys2Proof.Machine

variable {s t : State} {i : Instr}

/-! ### What the checks ask of a command -/

/-- The three motion commands, whose entry the Driver Enable Gate guards (R109 step 5). -/
def isMotion (o : Opcode) : Bool := o == .step || o == .stepTimer || o == .stepTrapezoid

/-- The refusal for the caller obligation that a command breaks in this state (R109 step 4). -/
def brokenObligation (o : Opcode) (s : State) : Option Refusal :=
  match o with
  | .init => notWhileArmed s
  | .step | .stepTrapezoid => oneDiscipline s
  | .enable | .stepTimer | .timerStop => none

/-- Every command is its own effect behind the common checks; which of them apply depends on the opcode only. -/
theorem exec_checked (i : Instr) (s : State) : exec i s =
    checked i.opcode (i.opcode != .init) (brokenObligation i.opcode s) (isMotion i.opcode) i.argc s (ownEffect i s) := by
  cases i <;> rfl

theorem wellFormed_iff : i.wellFormed = true ↔ i.argc ≠ 3#2 := by simp [Instr.wellFormed]

theorem isMotion_iff {o : Opcode} : isMotion o = true ↔ o = .step ∨ o = .stepTimer ∨ o = .stepTrapezoid := by
  simp [isMotion, or_assoc]

theorem active_iff : active s = true ↔ s.timerRun = true ∧ s.stepsEmitted < s.stepBudget := by simp [active]

theorem brokenObligation_twoDisciplines {o : Opcode} (ho : o = .step ∨ o = .stepTrapezoid) (ha : active s = true) :
    brokenObligation o s = some .twoDisciplines := by
  rcases ho with rfl | rfl <;> simp [brokenObligation, oneDiscipline, ha]

theorem brokenObligation_initWhileArmed (hrun : s.timerRun = true) :
    brokenObligation .init s = some .initWhileArmed := by
  simp [brokenObligation, notWhileArmed, armed, hrun]

/-- A command breaks no obligation when neither of the two conditions of R109 step 4 applies. -/
theorem brokenObligation_none {o : Opcode} (hone : o = .step ∨ o = .stepTrapezoid → active s = false)
    (hinit : o = .init → s.timerRun = false) : brokenObligation o s = none := by
  cases o with
  | init => exact notWhileArmed_eq_none.mpr (hinit rfl)
  | step => exact oneDiscipline_eq_none.mpr (hone (.inl rfl))
  | stepTrapezoid => exact oneDiscipline_eq_none.mpr (hone (.inr rfl))
  | enable => rfl
  | stepTimer => rfl
  | timerStop => rfl

/-! ### One outcome for each step of R109, after `exec_missingArgument` -/

section
variable (ha : i.argc ≠ 3#2) (hargs : i.opcode.argsRequired ≤ i.argc.toNat)
include ha hargs

theorem exec_notInitialised (ho : i.opcode ≠ .init) (hi : s.initState ≠ .ready) :
    exec i s = .refused .notInitialised := by
  have hready : ready s = false := Bool.eq_false_iff.mpr fun h => hi (ready_eq_true.mp h)
  simp [exec_checked, checked, ha, hargs, ho, hready]

variable (hready : i.opcode ≠ .init → s.initState = .ready)
include hready

theorem exec_brokenObligation {r : Refusal} (hr : brokenObligation i.opcode s = some r) : exec i s = .refused r := by
  have hnotReady : ((i.opcode != .init) && !ready s) = false := by simpa using hready
  simp [exec_checked, checked, ha, hargs, hnotReady, hr]

theorem exec_driverDisabled (hb : brokenObligation i.opcode s = none) (hm : isMotion i.opcode = true)
    (he : s.oeN ≠ 0#1) : exec i s = .next (respond .driverDisabled s) := by
  have hnotReady : ((i.opcode != .init) && !ready s) = false := by simpa using hready
  have hdisabled : isEnabled s = false := Bool.eq_false_iff.mpr fun h => he (isEnabled_eq_true.mp h)
  simp [exec_checked, checked, ha, hargs, hnotReady, hb, hm, hdisabled, raise, conditionResponse]

theorem exec_ownEffect (hb : brokenObligation i.opcode s = none) (he : isMotion i.opcode = true → s.oeN = 0#1) :
    exec i s = ownEffect i s := by
  rw [exec_checked, hb]
  exact checked_effect ha hargs (fun h => ready_eq_true.mpr (hready (by simpa using h)))
    fun h => isEnabled_eq_true.mpr (he h)

end

/-- Settles O12: branch by branch, the lemma for each step of R109. -/
theorem checksInOrder : Obligations.ChecksInOrder := by
  unfold Obligations.ChecksInOrder
  refine ⟨fun w e s h => acceptWord_illegal h, fun i s hwf => ?_⟩
  have ha := wellFormed_iff.mp hwf
  split_ifs with hsmall hinit htwo harmed hgate
  · exact exec_missingArgument ha hsmall
  all_goals have hargs := Nat.not_lt.mp hsmall
  · exact exec_notInitialised ha hargs hinit.1 hinit.2
  all_goals have hready : i.opcode ≠ .init → s.initState = .ready := fun ho => by_contra fun hi => hinit ⟨ho, hi⟩
  · exact exec_brokenObligation ha hargs hready (brokenObligation_twoDisciplines htwo.1 (active_iff.mpr htwo.2))
  · refine exec_brokenObligation ha hargs hready ?_
    rw [harmed.1]
    exact brokenObligation_initWhileArmed harmed.2
  all_goals
    have hb : brokenObligation i.opcode s = none := brokenObligation_none
      (fun ho => Bool.eq_false_iff.mpr fun hact => htwo ⟨ho, active_iff.mp hact⟩)
      (fun ho => Bool.eq_false_iff.mpr fun hrun => harmed ⟨ho, hrun⟩)
  · exact exec_driverDisabled ha hargs hready hb (isMotion_iff.mpr hgate.1) hgate.2
  · exact exec_ownEffect ha hargs hready hb fun hm => by_contra fun he => hgate ⟨isMotion_iff.mp hm, he⟩

/-- Settles O29: the first two steps of R109. -/
theorem notReadyRefused : Obligations.NotReadyRefused := by
  unfold Obligations.NotReadyRefused
  intro i s hwf ho hi
  have ha := wellFormed_iff.mp hwf
  exact ⟨fun hargs => exec_notInitialised ha hargs ho hi, fun hsmall => exec_missingArgument ha hsmall⟩

/-! ### INIT -/

theorem bringUpDone_eq (r : BringUp) (s : State) : bringUpDone r s = { s with
    initState := if r = .success then .ready else .failed
    draws := s.draws + 1
    log := .response (if r = .success then .ok else .peripheralInitFailure) :: s.log } := by
  cases r <;> rfl

/-- Settles O13: INIT requires no argument and no earlier INIT, so its one obligation decides. -/
theorem initResult : Obligations.InitResult := by
  unfold Obligations.InitResult
  intro argc arg0 arg1 s ha
  obtain ⟨hop, -⟩ := Laws.EncodedFields.init argc arg0 arg1
  have hargs : 0 ≤ argc.toNat := Nat.zero_le _
  have hready : Opcode.init ≠ .init → s.initState = .ready := fun h => absurd rfl h
  refine ⟨hop, fun hrun => ?_, fun hrun => ?_⟩
  · rw [exec_ownEffect (i := .init argc arg0 arg1) ha hargs hready (notWhileArmed_eq_none.mpr hrun) nofun]
    exact congrArg Host.Outcome.next (bringUpDone_eq _ s)
  · exact exec_brokenObligation (i := .init argc arg0 arg1) ha hargs hready (brokenObligation_initWhileArmed hrun)

/-! ### ENABLE -/

/-- ENABLE with its argument there, in a block that is ready, has its own effect. -/
theorem exec_enable {argc : BitVec 2} (state arg1 : Word) (hargc : argc = 1#2 ∨ argc = 2#2) (hi : s.initState = .ready) :
    exec (.enable argc state arg1) s = ownEffect (.enable argc state arg1) s := by
  have hargs : argc ≠ 3#2 ∧ 1 ≤ argc.toNat := by rcases hargc with rfl | rfl <;> decide
  exact exec_ownEffect hargs.1 hargs.2 (fun _ => hi) rfl nofun

/-- Settles O14: the busy port, the missing argument, and the effect for state 0, 1 and above. -/
theorem enableResult : Obligations.EnableResult := by
  unfold Obligations.EnableResult
  intro argc state arg1 s
  obtain ⟨hop, -⟩ := Laws.EncodedFields.enable argc state arg1
  refine ⟨hop, fun rest hm hturn _ => step_host_busy hm hturn, ?_, fun hargc hi hs => ?_, fun hargc hi hs => ?_,
    fun hargc hi hs => ?_⟩
  · rintro rfl
    exact exec_missingArgument (by decide : 0#2 ≠ 3#2) (by decide : 0 < 1)
  · rw [exec_enable state arg1 hargc hi, hs]
    rfl
  · rw [exec_enable state arg1 hargc hi, hs]
    rfl
  · rw [exec_enable state arg1 hargc hi]
    exact if_neg (Nat.not_le.mpr hs)

/-! ### TIMER_STOP -/

/-- TIMER_STOP in a block that is ready stops the timer, whatever the gate. -/
theorem exec_timerStop {argc : BitVec 2} (arg0 arg1 : Word) (ha : argc ≠ 3#2) (hi : s.initState = .ready) :
    exec (.timerStop argc arg0 arg1) s = .next (respond .ok { s with timerRun := false }) :=
  exec_ownEffect ha (Nat.zero_le argc.toNat) (fun _ => hi) rfl nofun

/-- A turn of the timer while it is stopped changes nothing. -/
theorem step_fire_stopped {rest : List Turn} (hrun : s.timerRun = false) (ha : s.agenda = .fire :: rest) :
    step s = .next { s with agenda := rest } := by
  rw [step_turn ha]
  exact congrArg Host.Outcome.next (fireTurn_stopped hrun)

theorem startStep_timerRun (count delay : Word) (s : State) : (startStep count delay s).timerRun = s.timerRun := by
  unfold startStep
  split
  · rfl
  · exact (runToCompletion_frame (loadStep count delay (dirSet (dirOf count) s))).timerRun

/-- A command leaves `timer_run`, or it is a TIMER_STOP that clears it, or a STEP_TIMER that arms. -/
theorem exec_timerRun (h : exec i s = .next t) :
    t.timerRun = s.timerRun ∨ (i.opcode = .timerStop ∧ t.timerRun = false) ∨
      ∃ argc budget divisor, i = .stepTimer argc budget divisor ∧ t = respond .ok (arm budget divisor s) := by
  rcases exec_next h with rfl | rfl | ⟨heff, -, -⟩
  · exact .inl rfl
  · exact .inl rfl
  · cases i with
    | init =>
      obtain ⟨-, rfl⟩ := heff
      exact .inl rfl
    | enable =>
      obtain ⟨-, -, rfl⟩ := heff
      exact .inl rfl
    | step _ count delay =>
      obtain ⟨-, -, -, rfl⟩ := heff
      exact .inl (startStep_timerRun count delay s)
    | stepTimer argc budget divisor =>
      obtain ⟨-, -, rfl⟩ := heff
      exact .inr (.inr ⟨argc, budget, divisor, rfl, rfl⟩)
    | stepTrapezoid =>
      obtain ⟨-, -, -, rfl⟩ := heff
      exact .inl (runToCompletion_frame (loadProfile (dirSet .clockwise s))).timerRun
    | timerStop =>
      obtain ⟨-, rfl⟩ := heff
      exact .inr (.inl ⟨rfl, rfl⟩)

/-- A step from Idle to Armed is the acceptance of a STEP_TIMER, which arms (R107). -/
theorem step_arms (hidle : s.timerRun = false) (h : step s = .next t) (harmed : t.timerRun = true) :
    ∃ rest w q argc budget divisor, s.agenda = .host :: rest ∧ s.host = .cmd w :: q ∧
      decode w = .ok (.stepTimer argc budget divisor) ∧
      t = respond .ok (arm budget divisor { s with agenda := rest, host := q }) := by
  have hkeeps : t.timerRun ≠ s.timerRun := by simp [hidle, harmed]
  rcases step_cases h with ⟨-, rfl⟩ | ⟨rest, -, rfl⟩ | ⟨rest, -, rfl⟩ | ⟨rest, -, rfl⟩ | ⟨rest, -, -, rfl⟩ |
    ⟨rest, w, q, i, ha, -, hh, hw, hexec⟩ | ⟨rest, n, q, -, -, -, hread⟩
  · exact absurd rfl hkeeps
  · exact absurd harmed nofun
  · exact absurd (tuTick_frame _).timerRun hkeeps
  · rw [fireTurn_stopped (s := { s with agenda := rest }) hidle] at hkeeps
    exact absurd rfl hkeeps
  · exact absurd rfl hkeeps
  · rcases exec_timerRun hexec with hsame | ⟨-, hstop⟩ | ⟨argc, budget, divisor, rfl, rfl⟩
    · exact absurd hsame hkeeps
    · simp [hstop] at harmed
    · exact ⟨rest, w, q, argc, budget, divisor, ha, hh, hw, rfl⟩
  · obtain ⟨v, k, -, rfl⟩ := regRead_next hread
    exact absurd rfl hkeeps

/-- Settles O15: its own effect, the passed turn of a stopped timer, and the one way from Idle to Armed. -/
theorem timerStopResult : Obligations.TimerStopResult := by
  unfold Obligations.TimerStopResult
  refine ⟨fun argc arg0 arg1 s ha hi => ?_, fun s t hidle h harmed => ?_⟩
  · obtain ⟨hop, -⟩ := Laws.EncodedFields.timerStop argc arg0 arg1
    have hstop := exec_timerStop arg0 arg1 ha hi
    refine ⟨hop, hstop, fun t rest h => ?_⟩
    obtain rfl := Host.Outcome.next.inj (hstop.symm.trans h)
    exact step_fire_stopped rfl rfl
  · obtain ⟨rest, w, q, argc, budget, divisor, ha, hh, hw, rfl⟩ := step_arms hidle h harmed
    exact ⟨rest, w, q, _, ha, hh, hw, rfl, rfl, rfl⟩

/-! ### The Pulse Output Port -/

/-- A level and its complement are two levels. -/
theorem level_not_ne (l : Level) : ~~~l ≠ l := by
  revert l
  decide

/-- Settles O11: each primitive is its one write; a toggle always moves the pin, and STATUS shows it at bit 2. -/
theorem portPrimitives : Obligations.PortPrimitives := by
  unfold Obligations.PortPrimitives
  intro s l
  obtain ⟨-, -, -, hstep, -, -⟩ := statusWord_fields s
  exact ⟨rfl, level_not_ne s.stepPin, rfl, ne_comm, rfl, hstep, rfl, rfl, fun _ => rfl⟩

end Sys2Proof.Machine
end

section
/-! SUPPORT. The Immediate Stepper (41_immediate_stepper.md): a STEP with count 0 (R121), the sequencer steps of mode IMM
(R123, R124), and firings during a STEP (R129). -/

namespace Sys2Proof.Machine

variable {s : State}

/-! ### A STEP that does not start the sequencer -/

/-- A count of 0 is no positive count: the direction pin goes to CounterClockwise, and no toggle is made. -/
theorem startStep_zero (delay : Word) (s : State) :
    startStep 0#32 delay s = respond .ok (dirSet .counterClockwise s) := by
  have hmag : magOf 0#32 = 0 := by decide
  have hdir : dirOf 0#32 = .counterClockwise := dirOf_nonpos (by decide)
  rw [startStep, if_pos hmag, hdir]

/-- A STEP with its arguments, in a block that is ready and disabled and whose generator is not active, reports the gate
and changes no register. -/
theorem exec_step_disabled (count delay : Word) (hi : s.initState = .ready) (he : s.oeN ≠ 0#1) (ha : active s = false) :
    exec (.step 2#2 count delay) s = .next (respond .driverDisabled s) :=
  exec_driverDisabled (i := .step 2#2 count delay) (by decide : 2#2 ≠ 3#2) (Nat.le_refl 2) (fun _ => hi)
    (oneDiscipline_eq_none.mpr ha) rfl he

/-- A STEP with its arguments, in a block that is ready and whose generator is active, is refused at acceptance. -/
theorem exec_step_active (count delay : Word) (hi : s.initState = .ready) (ha : active s = true) :
    exec (.step 2#2 count delay) s = .refused .twoDisciplines :=
  exec_brokenObligation (i := .step 2#2 count delay) (by decide : 2#2 ≠ 3#2) (Nat.le_refl 2) (fun _ => hi)
    (brokenObligation_twoDisciplines (.inl rfl) ha)

/-- Settles O17: the gate is tested before the direction pin is written. -/
theorem stepZeroCount : Obligations.StepZeroCount := by
  unfold Obligations.StepZeroCount
  intro delay s hi ha
  refine ⟨fun hdisabled => ?_, fun henabled => ?_⟩
  · have he : s.oeN ≠ 0#1 := by simp [hdisabled]
    exact exec_step_disabled 0#32 delay hi he ha
  · rw [exec_step 0#32 delay hi henabled ha, startStep_zero]
    rfl

/-! ### A firing during a STEP -/

/-- An armed generator takes its turn, whatever the sequencer does. -/
theorem step_fire_armed {rest : List Turn} (hrun : s.timerRun = true) (ha : s.agenda = .fire :: rest) :
    step s = .next (fire { s with agenda := rest }) := by
  rw [step_turn ha]
  exact congrArg Host.Outcome.next (fireTurn_armed hrun)

/-- A firing with the budget used up changes `divisor_counter` only. -/
theorem fire_exhausted (h : s.stepBudget ≤ s.stepsEmitted) :
    fire s = { s with divisorCounter := (fire s).divisorCounter, log := .fire :: s.log } := by
  have hnone : ¬(s.stepsEmitted < s.stepBudget ∧ s.divisorCounter = 0#32) := fun hleft => BitVec.not_lt.mpr h hleft.1
  rw [fire_divides hnone]

/-- Settles O40: the frame of a firing, the firing with no toggle left, and the obligation that STEP breaks. -/
theorem fireDuringStep : Obligations.FireDuringStep := by
  unfold Obligations.FireDuringStep
  refine ⟨fun s rest _ hrun ha => ?_, fun s h => fire_exhausted h, fun s count delay hi hrun hleft => ?_⟩
  · exact ⟨step_fire_armed hrun ha, (fire_frame { s with agenda := rest }).sequencer⟩
  · exact exec_step_active count delay hi (active_iff.mpr ⟨hrun, hleft⟩)

/-! ### The sequencer steps of mode IMM -/

/-- The end of a wait with no toggle left ends the STEP with its response. -/
theorem immWaitDone_last (hr : s.seqRemaining = 0#33) : immWaitDone s = respond .ok { s with seqMode := .none } :=
  if_pos hr

/-- The end of a wait with a toggle left makes that toggle due. -/
theorem immWaitDone_next (hr : s.seqRemaining ≠ 0#33) : immWaitDone s = { s with seqPhase := .act } :=
  if_neg hr

/-- Settles O41: IMM.ACT, the two branches of IMM.WAIT_DONE, and the wait that only ticks shorten. -/
theorem sequencerStepsImm : Obligations.SequencerStepsImm := by
  unfold Obligations.SequencerStepsImm
  intro s hm
  refine ⟨fun hact => ?_, fun hwait _ hr => ?_, fun hwait _ hr => ?_, fun hwait hw => seqEnabled_waiting hwait hw⟩
  · rw [seqStep_immAct hm hact]
    rfl
  · rw [seqStep_immWaitDone hm hwait, immWaitDone_last hr]
    rfl
  · rw [seqStep_immWaitDone hm hwait, immWaitDone_next hr]

end Sys2Proof.Machine
end

section
/-! SUPPORT. The Periodic Rate Generator (42_periodic_rate_generator.md): STEP_TIMER (R142), the transitions of `timer_run`
(R141), a firing (R145), firings with the budget used up (R148), and the handler and the gate (R150). -/

namespace Sys2Proof.Machine

variable {s t : State} {i : Instr} {argc : BitVec 2}

/-! ### STEP_TIMER -/

/-- The arm with its response, register by register (R142). -/
theorem respond_arm (budget divisor : Word) (s : State) : respond .ok (arm budget divisor s) = { s with
    dirPin := if 0 < budget.toInt then Config.dirCw else ~~~Config.dirCw
    stepBudget := BitVec.ofNat 32 budget.toInt.natAbs
    rateDivisor := divisor
    stepsEmitted := 0#32
    divisorCounter := 0#32
    timerRun := true
    rateWritten := true
    log := .response .ok :: .dirSet (if 0 < budget.toInt then Config.dirCw else ~~~Config.dirCw) :: s.log } := by
  rw [← dirLevel_dirOf budget]
  rfl

/-- A STEP_TIMER with too few arguments reports so and changes no register. -/
theorem exec_stepTimer_missing (budget divisor : Word) (hargc : argc.toNat < 2) :
    exec (.stepTimer argc budget divisor) s = .next (respond .missingArgument s) := by
  have ha : argc ≠ 3#2 := by bv_omega
  exact exec_missingArgument (i := .stepTimer argc budget divisor) ha hargc

/-- A STEP_TIMER with its arguments, in a block that is ready and disabled, reports the gate and changes no register. -/
theorem exec_stepTimer_disabled (budget divisor : Word) (hi : s.initState = .ready) (he : s.oeN ≠ 0#1) :
    exec (.stepTimer 2#2 budget divisor) s = .next (respond .driverDisabled s) :=
  exec_driverDisabled (i := .stepTimer 2#2 budget divisor) (by decide : 2#2 ≠ 3#2) (Nat.le_refl 2) (fun _ => hi)
    rfl rfl he

/-- Settles O20: the arm register by register, and the two reports. -/
theorem stepTimerResult : Obligations.StepTimerResult := by
  unfold Obligations.StepTimerResult
  intro argc budget divisor s
  obtain ⟨hop, -⟩ := Laws.EncodedFields.stepTimer argc budget divisor
  refine ⟨hop, ?_, exec_stepTimer_missing budget divisor, ?_⟩
  · rintro rfl hi he
    rw [exec_stepTimer budget divisor hi he, respond_arm]
  · rintro rfl hi hdisabled
    have he : s.oeN ≠ 0#1 := by simp [hdisabled]
    exact exec_stepTimer_disabled budget divisor hi he

/-! ### The transitions of `timer_run` -/

/-- No command that answers a next state has the reserved `argc`. -/
theorem argc_ne_three_of_exec (h : exec i s = .next t) : i.argc ≠ 3#2 := fun hthree => by
  simp [exec_checked, checked, hthree] at h

/-- A command other than INIT with its arguments there answers a next state in a READY block only (R108). -/
theorem ready_of_exec (h : exec i s = .next t) (ho : i.opcode ≠ .init)
    (hargs : i.opcode.argsRequired ≤ i.argc.toNat) : s.initState = .ready := by
  by_contra hi
  rw [exec_notInitialised (argc_ne_three_of_exec h) hargs ho hi] at h
  cases h

/-- A STEP_TIMER arms when both arguments are there and the gate is enabled, and else leaves `timer_run` (R141). -/
theorem exec_stepTimer_timerRun {budget divisor : Word} (h : exec (.stepTimer argc budget divisor) s = .next t) :
    t.timerRun = if argc = 2#2 ∧ s.oeN = 0#1 then true else s.timerRun := by
  have ha : argc ≠ 3#2 := argc_ne_three_of_exec h
  by_cases hsmall : argc.toNat < 2
  · have htwo : ¬(argc = 2#2 ∧ s.oeN = 0#1) := by bv_omega
    rw [exec_stepTimer_missing budget divisor hsmall] at h
    cases h
    exact (if_neg htwo).symm
  · obtain rfl : argc = 2#2 := by bv_omega
    have hi : s.initState = .ready := ready_of_exec h nofun (Nat.le_refl 2)
    by_cases he : s.oeN = 0#1
    · rw [exec_stepTimer budget divisor hi he] at h
      cases h
      exact (if_pos ⟨rfl, he⟩).symm
    · rw [exec_stepTimer_disabled budget divisor hi he] at h
      cases h
      exact (if_neg fun hboth => he hboth.2).symm

/-- A TIMER_STOP that answers a next state has stopped the timer (R141). -/
theorem exec_timerStop_timerRun {arg0 arg1 : Word} (h : exec (.timerStop argc arg0 arg1) s = .next t) :
    t.timerRun = false := by
  have ha : argc ≠ 3#2 := argc_ne_three_of_exec h
  have hi : s.initState = .ready := ready_of_exec h nofun (Nat.zero_le argc.toNat)
  rw [exec_timerStop arg0 arg1 ha hi] at h
  cases h
  rfl

/-- A turn of the timer, taken or passed, leaves `timer_run`. -/
theorem fireTurn_timerRun (s : State) : (fireTurn s).timerRun = s.timerRun := by
  unfold fireTurn
  split
  · exact (fire_frame s).timerRun
  · rfl

/-- A step that changes `timer_run` is a reset, or the acceptance of STEP_TIMER or TIMER_STOP (R141). -/
theorem step_changes_timerRun (h : step s = .next t) (hne : t.timerRun ≠ s.timerRun) :
    (∃ rest, s.agenda = .reset :: rest) ∨
      ∃ rest w q i, s.agenda = .host :: rest ∧ s.host = .cmd w :: q ∧ decode w = .ok i ∧
        (i.opcode = .stepTimer ∨ i.opcode = .timerStop) := by
  rcases step_cases h with ⟨-, rfl⟩ | ⟨rest, ha, -⟩ | ⟨rest, -, rfl⟩ | ⟨rest, -, rfl⟩ | ⟨rest, -, -, rfl⟩ |
    ⟨rest, w, q, i, ha, -, hh, hw, hexec⟩ | ⟨rest, n, q, -, -, -, hread⟩
  · exact absurd rfl hne
  · exact .inl ⟨rest, ha⟩
  · exact absurd (tuTick_frame _).timerRun hne
  · exact absurd (fireTurn_timerRun _) hne
  · exact absurd rfl hne
  · refine .inr ⟨rest, w, q, i, ha, hh, hw, ?_⟩
    rcases exec_timerRun hexec with hsame | ⟨hstop, -⟩ | ⟨argc, budget, divisor, rfl, -⟩
    · exact absurd hsame hne
    · exact .inr hstop
    · exact .inl rfl
  · obtain ⟨v, k, -, rfl⟩ := regRead_next hread
    exact absurd rfl hne

/-- Settles O35: row by row of R141's table, and the steps that change `timer_run`. -/
theorem timerRunTransitions : Obligations.TimerRunTransitions := by
  unfold Obligations.TimerRunTransitions
  exact ⟨rfl, fun _ _ _ _ _ => exec_stepTimer_timerRun, fun _ _ _ _ _ => exec_timerStop_timerRun,
    fun s => (fire_frame s).timerRun, fun _ => rfl, fun _ _ => step_changes_timerRun⟩

/-! ### A firing -/

/-- Settles O36: a stopped timer's turn passes, and an armed one's is a firing that toggles or only divides. -/
theorem fireEffect : Obligations.FireEffect := by
  unfold Obligations.FireEffect
  refine fun s rest ha => ⟨fun hrun => step_fire_stopped hrun ha, fun hrun hleft hzero => ?_, fun hrun hno => ?_⟩
  · rw [step_fire_armed hrun ha, fire_toggles (s := { s with agenda := rest }) hleft hzero]
  · have hnone : ¬(s.stepsEmitted < s.stepBudget ∧ s.divisorCounter = 0#32) := fun ⟨hleft, hzero⟩ =>
      hno.elim (fun hused => BitVec.not_lt.mpr hused hleft) (fun hne => hne hzero)
    rw [step_fire_armed hrun ha, fire_divides (s := { s with agenda := rest }) hnone]

/-! ### Firings with the budget used up -/

/-- Every firing advances the divisor counter, whether or not it toggles (R145). -/
theorem fire_divisorCounter (s : State) : (fire s).divisorCounter =
    if s.divisorCounter + 1#32 = s.rateDivisor then 0#32 else s.divisorCounter + 1#32 := by
  by_cases htoggle : s.stepsEmitted < s.stepBudget ∧ s.divisorCounter = 0#32
  · rw [fire_toggles htoggle.1 htoggle.2]
  · rw [fire_divides htoggle]

/-- With the budget used up, any number of firings changes `divisor_counter` only. -/
theorem firings_exhausted (hused : s.stepBudget ≤ s.stepsEmitted) (m : Nat) :
    firings m s = { s with
      divisorCounter := (firings m s).divisorCounter, log := List.replicate m .fire ++ s.log } := by
  induction m with
  | zero => rfl
  | succ m ih =>
    have hused' : (firings m s).stepBudget ≤ (firings m s).stepsEmitted := by
      rw [ih]
      exact hused
    calc firings (m + 1) s
      _ = { firings m s with
            divisorCounter := (firings (m + 1) s).divisorCounter, log := .fire :: (firings m s).log } :=
        fire_exhausted hused'
      _ = { s with
            divisorCounter := (firings (m + 1) s).divisorCounter,
            log := List.replicate (m + 1) .fire ++ s.log } := by
        rw [ih]
        rfl

theorem pinWritesIn_replicate_fire (m : Nat) (log : List Obs) :
    pinWritesIn (List.replicate m .fire ++ log) = pinWritesIn log := by
  induction m with
  | zero => rfl
  | succ m ih => exact ih

/-- Settles O38: firings with the budget used up change `divisor_counter` only, and each of them advances it. -/
theorem exhaustionIsTerminal : Obligations.ExhaustionIsTerminal := by
  unfold Obligations.ExhaustionIsTerminal
  intro s m hrun hused
  have hfirings := firings_exhausted (BitVec.le_of_eq hused.symm) m
  have hdivisor : (firings m s).rateDivisor = s.rateDivisor := by rw [hfirings]
  refine ⟨by rw [hfirings], by rw [hfirings], by rw [hfirings, hrun], ?_, ?_⟩
  · rw [hfirings]
    exact pinWritesIn_replicate_fire m s.log
  · rw [← hdivisor]
    exact fire_divisorCounter (firings m s)

/-! ### The handler and the gate -/

/-- A firing commutes with any level of the gate: neither of its tests reads it (R150). -/
theorem fire_oeN (s : State) (l : Level) : fire { s with oeN := l } = { fire s with oeN := l } := by
  by_cases htoggle : s.stepsEmitted < s.stepBudget ∧ s.divisorCounter = 0#32
  · rw [fire_toggles htoggle.1 htoggle.2, fire_toggles (s := { s with oeN := l }) htoggle.1 htoggle.2]
  · rw [fire_divides htoggle, fire_divides (s := { s with oeN := l }) htoggle]

/-- An ENABLE that answers a next state leaves `timer_run`, the RateProgram and the step pin (R150). -/
theorem exec_enable_keeps_generator {state arg1 : Word} (h : exec (.enable argc state arg1) s = .next t) :
    t.timerRun = s.timerRun ∧ SameRateProgram s t ∧ t.stepPin = s.stepPin := by
  rcases exec_next h with rfl | rfl | ⟨⟨-, -, rfl⟩, -, -⟩ <;> exact ⟨rfl, ⟨rfl, rfl, rfl, rfl⟩, rfl⟩

/-- Settles O39: a firing commutes with the gate's level, and ENABLE writes none of these registers. -/
theorem handlerIgnoresGate : Obligations.HandlerIgnoresGate := by
  unfold Obligations.HandlerIgnoresGate
  exact ⟨fire_oeN, fun _ _ _ _ _ => exec_enable_keeps_generator⟩

end Sys2Proof.Machine
end

section
/-! SUPPORT. The Trapezoidal Profiler (43_trapezoidal_profiler.md): the entry of STEP_TRAPEZOID (R170, R174), the sequencer
steps of mode TRAP (R175, R176), and the halves of an index one after another (R171, R177). -/

namespace Sys2Proof.Machine

variable {s t : State}

/-! ### The entry -/

/-- A STEP_TRAPEZOID in a block that is ready and enabled and whose generator is not active starts, whatever its arguments. -/
theorem exec_stepTrapezoid {argc : BitVec 2} (arg0 arg1 : Word) (ha : argc ≠ 3#2) (hi : s.initState = .ready)
    (hact : active s = false) (he : s.oeN = 0#1) :
    exec (.stepTrapezoid argc arg0 arg1) s = .next (runToCompletion (loadProfile (dirSet .clockwise s))) :=
  exec_ownEffect (i := .stepTrapezoid argc arg0 arg1) ha (Nat.zero_le argc.toNat) (fun _ => hi)
    (oneDiscipline_eq_none.mpr hact) (fun _ => he)

/-- The start of a profile: the direction pin, then the first write of the step pin, and the first wait of index 0. -/
theorem startProfile_eq (s : State) : runToCompletion (loadProfile (dirSet .clockwise s)) = { s with
    dirPin := Config.dirCw
    stepPin := 0#1
    trapIdx := 0#12
    trapDelay := 10#32
    trapPhase := 0#5
    trapHalf := .low
    waitCnt := 10#32
    seqPhase := .wait
    seqMode := .trap
    log := .stepSet 0#1 :: .dirSet Config.dirCw :: s.log } := by
  have hwait : (trapAct (loadProfile (dirSet .clockwise s))).waitCnt ≠ 0#32 := (by decide : 10#32 ≠ 0#32)
  rw [runToCompletion_trapAct rfl rfl hwait]
  rfl

/-- A STEP_TRAPEZOID while the gate is disabled is at most a report. -/
theorem exec_stepTrapezoid_disabled {argc : BitVec 2} {arg0 arg1 : Word} (he : s.oeN = 1#1)
    (h : exec (.stepTrapezoid argc arg0 arg1) s = .next t) : ∃ r, t = respond r s := by
  rcases exec_next h with rfl | rfl | ⟨⟨-, -, henabled, -⟩, -, -⟩
  · exact ⟨_, rfl⟩
  · exact ⟨_, rfl⟩
  · simp [he] at henabled

/-! ### The direction pin during a profile -/

theorem dirSetsIn_fire (s : State) : dirSetsIn (fire s).log = dirSetsIn s.log := by
  by_cases htoggle : s.stepsEmitted < s.stepBudget ∧ s.divisorCounter = 0#32
  · rw [fire_toggles htoggle.1 htoggle.2]
    rfl
  · rw [fire_divides htoggle]
    rfl

/-- A turn of the timer, taken or passed, writes no direction pin. -/
theorem fireTurn_dirPin (s : State) :
    (fireTurn s).dirPin = s.dirPin ∧ dirSetsIn (fireTurn s).log = dirSetsIn s.log := by
  unfold fireTurn
  split
  · exact ⟨(fire_frame s).dirPin, dirSetsIn_fire s⟩
  · exact ⟨rfl, rfl⟩

/-- While a blocking command is in progress no step but a reset writes the direction pin. -/
theorem step_busy_dirPin (hm : s.seqMode ≠ .none) (hreset : ∀ rest, s.agenda ≠ .reset :: rest) (h : step s = .next t) :
    t.dirPin = s.dirPin ∧ dirSetsIn t.log = dirSetsIn s.log := by
  rcases step_cases h with ⟨-, rfl⟩ | ⟨rest, ha, -⟩ | ⟨rest, -, rfl⟩ | ⟨rest, -, rfl⟩ | ⟨rest, -, -, rfl⟩ |
    ⟨_, _, _, _, -, hidle, -⟩ | ⟨_, _, _, -, hidle, -⟩
  · exact ⟨rfl, rfl⟩
  · exact absurd ha (hreset rest)
  · have hframe := tuTick_frame { s with agenda := rest }
    exact ⟨hframe.dirPin, hframe.dirSets⟩
  · exact fireTurn_dirPin { s with agenda := rest }
  · exact ⟨rfl, rfl⟩
  · exact absurd hidle hm
  · exact absurd hidle hm

/-- Settles O24: the entry's two writes in order, the report of a disabled gate, and the steps of a busy block. -/
theorem profileDirectionFixed : Obligations.ProfileDirectionFixed := by
  unfold Obligations.ProfileDirectionFixed
  refine ⟨fun argc arg0 arg1 s t ha hi hact he h => ?_, fun argc arg0 arg1 s t he h => ?_,
    fun s t hm hreset h => step_busy_dirPin (by simp [hm]) hreset h⟩
  · rw [exec_stepTrapezoid arg0 arg1 ha hi hact he, startProfile_eq] at h
    cases h
    exact ⟨rfl, rfl⟩
  · obtain ⟨r, rfl⟩ := exec_stepTrapezoid_disabled he h
    exact ⟨rfl, rfl⟩

/-! ### The sequencer steps of mode TRAP -/

theorem inAccelZone_iff (i : BitVec 12) : inAccelZone i = true ↔ i < 200#12 := by
  simp [inAccelZone_eq, BitVec.lt_def]

theorem inRampZone_iff (i : BitVec 12) : inRampZone i = true ↔ i < 200#12 ∨ 3000#12 ≤ i := by
  simp [inRampZone_eq, BitVec.lt_def, BitVec.le_def]

/-- The delay moves at the start of an index exactly where the cadence is full in a ramp zone. -/
theorem adjusts_iff : (inRampZone s.trapIdx && s.trapPhase.toNat == Config.trapCadence) = true ↔
    (s.trapIdx < 200#12 ∨ 3000#12 ≤ s.trapIdx) ∧ s.trapPhase = 20#5 := by
  rw [Bool.and_eq_true, inRampZone_iff, beq_iff_eq, ← BitVec.toNat_inj]
  rfl

theorem trapAdjust_moves (hz : s.trapIdx < 200#12 ∨ 3000#12 ≤ s.trapIdx) (hp : s.trapPhase = 20#5) :
    trapAdjust s = { s with
      trapDelay := if s.trapIdx < 200#12 then s.trapDelay - 1#32 else s.trapDelay + 1#32
      trapPhase := 0#5 } := by
  rw [trapAdjust, if_pos (adjusts_iff.mpr ⟨hz, hp⟩)]
  simp only [inAccelZone_iff]

theorem trapAdjust_stays (h : ¬((s.trapIdx < 200#12 ∨ 3000#12 ≤ s.trapIdx) ∧ s.trapPhase = 20#5)) : trapAdjust s = s := by
  rw [trapAdjust, if_neg fun hadj => h (adjusts_iff.mp hadj)]

theorem trapAct_low (hh : s.trapHalf = .low) : trapAct s = trapWait (stepSet 0#1 (trapAdjust s)) := by
  simp only [trapAct, hh]

theorem trapAct_high (hh : s.trapHalf = .high) : trapAct s = trapWait (stepSet 1#1 s) := by
  simp only [trapAct, hh]

theorem trapWaitDone_low (hh : s.trapHalf = .low) : trapWaitDone s = { s with trapHalf := .high, seqPhase := .act } := by
  simp only [trapWaitDone, hh]

theorem trapWaitDone_high (hh : s.trapHalf = .high) : trapWaitDone s = trapIndexDone s := by
  simp only [trapWaitDone, hh]

/-- The end of the last index ends the profile with its response. -/
theorem trapIndexDone_last (hi : s.trapIdx = 3199#12) : trapIndexDone s = { s with
    trapPhase := s.trapPhase + 1#5, trapHalf := .low, trapIdx := 3200#12, seqMode := .none
    log := .response .ok :: s.log } := by
  have hlast : s.trapIdx.toNat + 1 = Config.trapTotal := by rw [hi]; rfl
  have hramp : inRampZone s.trapIdx = true := by rw [hi]; rfl
  simp only [trapIndexDone, if_pos hlast, if_pos hramp]
  simp [respond, hi]

/-- The end of any other index goes on to the next, the zone test on the index that has finished (R176). -/
theorem trapIndexDone_next (hi : s.trapIdx ≠ 3199#12) : trapIndexDone s = { s with
    trapPhase := if s.trapIdx < 200#12 ∨ 3000#12 ≤ s.trapIdx then s.trapPhase + 1#5 else s.trapPhase
    trapHalf := .low, trapIdx := s.trapIdx + 1#12, seqPhase := .act } := by
  have hnot : s.trapIdx.toNat + 1 ≠ Config.trapTotal := fun h =>
    hi (BitVec.eq_of_toNat_eq (Nat.succ.inj h))
  simp only [trapIndexDone, if_neg hnot, inRampZone_iff]

/-- In a profile of the invariant the delay is at least one tick (R42 (d), R171). -/
theorem trapDelay_pos (h : RunInv s) (hm : s.seqMode = .trap) : 1 ≤ s.trapDelay.toNat := by
  obtain ⟨-, -, -, htrap⟩ := h
  obtain ⟨hidx, hdelay, -⟩ := htrap hm
  rw [hdelay]
  exact (profileDelay_pos _ hidx).1

/-- A tick of a profile in a state of the invariant makes at most one write of the step pin. -/
theorem pinWritesIn_tuTick_trap (h : RunInv s) (hm : s.seqMode = .trap) :
    pinWritesIn (tuTick s).log ≤ pinWritesIn s.log + 1 := by
  rcases tuTick_cases h (by simp [hm]) with ⟨-, e⟩ | ⟨-, himm, -⟩ | ⟨-, himm, -⟩ | ⟨-, -, -, e⟩ | ⟨-, -, -, -, e⟩ |
    ⟨-, -, -, -, j, d, p, e, -⟩
  · simp [e, pinWritesIn]
  · simp [hm] at himm
  · simp [hm] at himm
  · simp [e, pinWritesIn]
  · simp [e, pinWritesIn]
  · simp [e, pinWritesIn]

/-- Settles O42: the branches of TRAP.ACT and of TRAP.WAIT_DONE, and the ticks of a state of the invariant. -/
theorem sequencerStepsTrap : Obligations.SequencerStepsTrap := by
  unfold Obligations.SequencerStepsTrap
  intro s hm
  refine ⟨fun hact hh hz hp => ?_, fun hact hh hstay => ?_, fun hact hh => ?_, fun hwait _ hh => ?_,
    fun hwait _ hh hi => ?_, fun hwait _ hh hi => ?_, fun h => ⟨trapDelay_pos h hm, pinWritesIn_tuTick_trap h hm⟩⟩
  · rw [seqStep_trapAct hm hact, trapAct_low hh, trapAdjust_moves hz hp]
    rfl
  · rw [seqStep_trapAct hm hact, trapAct_low hh, trapAdjust_stays hstay]
    rfl
  · rw [seqStep_trapAct hm hact, trapAct_high hh]
    rfl
  · rw [seqStep_trapWaitDone hm hwait, trapWaitDone_low hh]
  · rw [seqStep_trapWaitDone hm hwait, trapWaitDone_high hh, trapIndexDone_last hi]
  · rw [seqStep_trapWaitDone hm hwait, trapWaitDone_high hh, trapIndexDone_next hi]

/-! ### The halves of an index, one after another -/

theorem ticks_add (m n : Nat) (s : State) : ticks (m + n) s = ticks n (ticks m s) := by
  induction n with
  | zero => rfl
  | succ n ih => exact congrArg tuTick ih

/-- As many ticks as a wait has to go end it and run the sequencer. -/
theorem ticks_wait_ends (hm : s.seqMode ≠ .none) (hp : s.seqPhase = .wait) {n : Nat} (hw : s.waitCnt.toNat = n + 1) :
    ticks (n + 1) s =
      runToCompletion { s with waitCnt := 0#32, log := .tuTick :: (List.replicate n .tuTick ++ s.log) } := by
  have hwaiting := ticks_waiting hm hp (k := n) (by omega)
  have hlast : (ticks n s).waitCnt = 1#32 := by
    rw [hwaiting]
    bv_omega
  rw [ticks, tuTick_last (by rw [hwaiting]; exact hm) (by rw [hwaiting]; exact hp) hlast, hwaiting]
  rfl

/-- A half of index `i` of a profile begins: the registers of R42 (d), and the whole delay still to wait. -/
structure BeginsHalf (i : Nat) (half : Half) (s : State) : Prop where
  seqMode : s.seqMode = .trap
  seqPhase : s.seqPhase = .wait
  trapHalf : s.trapHalf = half
  trapIdx : s.trapIdx.toNat = i
  waitCnt : s.waitCnt = s.trapDelay
  trapInv : trapInv s

namespace BeginsHalf

variable {i : Nat} {half : Half}

theorem trapDelay (h : BeginsHalf i half s) : s.trapDelay.toNat = profileDelay i := by
  obtain ⟨-, hdelay, -⟩ := h.trapInv h.seqMode
  rw [hdelay, h.trapIdx]

/-- The `d(i)` ticks of a half end its wait. -/
theorem ticks_eq (h : BeginsHalf i half s) : ∃ log, ticks (profileDelay i) s =
    runToCompletion { s with waitCnt := 0#32, log := log } := by
  obtain ⟨hidx, -⟩ := h.trapInv h.seqMode
  rw [h.trapIdx] at hidx
  obtain ⟨n, hn⟩ := Nat.exists_eq_add_of_le' (profileDelay_pos i hidx).1
  rw [hn]
  exact ⟨_, ticks_wait_ends (by simp [h.seqMode]) h.seqPhase (by rw [h.waitCnt, h.trapDelay, hn])⟩

/-- The start of a profile begins the low half of index 0. -/
theorem startProfile (s : State) : BeginsHalf 0 .low (runToCompletion (loadProfile (dirSet .clockwise s))) := by
  have hidx : 0 < Config.trapTotal := by decide
  have hdelay : 10 = profileDelay 0 := by decide
  have hphase : 0 = profilePhase 0 := by decide
  rw [startProfile_eq]
  exact ⟨rfl, rfl, rfl, rfl, rfl, fun _ => ⟨hidx, hdelay, hphase, BitVec.le_refl _, rfl⟩⟩

/-- After the ticks of its low half the high half of the same index begins. -/
theorem high (h : BeginsHalf i .low s) : BeginsHalf i .high (ticks (profileDelay i) s) := by
  obtain ⟨log, hticks⟩ := h.ticks_eq
  obtain ⟨hidx, hdelay, hphase, -, -⟩ := h.trapInv h.seqMode
  have hpos := (profileDelay_pos _ hidx).1
  have hne : s.trapDelay ≠ 0#32 := by bv_omega
  rw [hticks, runToCompletion_trapLowDone (s := { s with waitCnt := 0#32, log := log }) h.seqMode h.seqPhase rfl
    h.trapHalf hne]
  exact ⟨h.seqMode, rfl, rfl, h.trapIdx, rfl, fun _ => ⟨hidx, hdelay, hphase, BitVec.le_refl _, rfl⟩⟩

/-- After the ticks of its high half the low half of the next index begins. -/
theorem next (h : BeginsHalf i .high s) (hi : i + 1 < 3200) : BeginsHalf (i + 1) .low (ticks (profileDelay i) s) := by
  obtain ⟨log, hticks⟩ := h.ticks_eq
  obtain ⟨-, hdelay, hphase, -, -⟩ := h.trapInv h.seqMode
  obtain rfl := h.trapIdx
  obtain ⟨d, p, hadjust, hidx, hd, hp⟩ :=
    trapAdjust_indexDone (s := { s with waitCnt := 0#32, log := log }) hi hdelay hphase
  have hpos := (profileDelay_pos _ hi).1
  have hne : d ≠ 0#32 := by bv_omega
  rw [hticks, runToCompletion_trapNext (s := { s with waitCnt := 0#32, log := log }) h.seqMode h.seqPhase rfl
    h.trapHalf hi.ne (by rwa [hadjust]), hadjust]
  exact ⟨h.seqMode, rfl, rfl, hidx, rfl, fun _ => ⟨hidx ▸ hi, hidx ▸ hd, hidx ▸ hp, BitVec.le_refl _, rfl⟩⟩

/-- Index `i` begins at tick `S(i)` (R177). -/
theorem ticks_profileStart (h : BeginsHalf 0 .low s) (hi : i < 3200) : BeginsHalf i .low (ticks (profileStart i) s) := by
  induction i with
  | zero => exact h
  | succ i ih =>
    have hstart : profileStart (i + 1) = profileStart i + profileDelay i + profileDelay i := by
      rw [profileStart]
      omega
    rw [hstart, ticks_add, ticks_add]
    exact (ih (by omega)).high.next hi

end BeginsHalf

/-- Settles O23: index `i` begins with the delay `d(i)`, which R171 gives zone by zone. -/
theorem profileDelays : Obligations.ProfileDelays := by
  unfold Obligations.ProfileDelays
  intro argc arg0 arg1 s t ha hi hact he h i hlt
  rw [exec_stepTrapezoid arg0 arg1 ha hi hact he] at h
  obtain rfl := Host.Outcome.next.inj h
  have hbegins := (BeginsHalf.startProfile s).ticks_profileStart hlt
  have hdelay := profileDelay_eq i ▸ hbegins.trapDelay
  refine ⟨hbegins.trapIdx, fun haccel => ?_, fun hcruise hend => ?_, fun hdecel => ?_⟩
  · rw [hdelay, if_pos haccel]
  · rw [hdelay, if_neg (by omega), if_pos hend]
  · rw [hdelay, if_neg (by omega), if_neg (by omega)]

end Sys2Proof.Machine
end

section
/-! SUPPORT. The three error conditions (60_exceptions.md R190 to R193): which report a command can end with, and that the
sequencer, a tick and a firing end with none. -/

namespace Sys2Proof.Machine

open Relation

variable {s t : State} {i : Instr}

/-! ### Observations that end with no report -/

/-- The last observation reports no error condition: if it is a response, it is `OK` (R90). -/
def ReportsNone (s : State) : Prop := ∀ r, s.log.head? = some (.response r) → r = .ok

theorem reportsNone_respond_ok (s : State) : ReportsNone (respond .ok s) := by
  rintro r ⟨⟩
  rfl

theorem reportsNone_of_log {o : Obs} {log : List Obs} (h : t.log = o :: log) (ho : ∀ r, o ≠ .response r) :
    ReportsNone t := by
  intro r hr
  rw [h] at hr
  exact absurd (Option.some.inj hr) (ho r)

/-- More toggles are a last observation of their own, or they lengthen it; neither is a response. -/
theorem reportsNone_of_toggles {n : Nat} {log : List Obs} (h : t.log = logToggles n log) : ReportsNone t := by
  unfold logToggles at h
  split at h <;> exact reportsNone_of_log h nofun

/-! ### The sequencer, ticks and firings -/

/-- A sequencer step reports no condition. -/
theorem seqStep_reportsNone (h : ReportsNone s) : ReportsNone (seqStep s) := by
  unfold seqStep
  split
  · exact h
  · exact reportsNone_of_toggles (t := immAct s) rfl
  · unfold immWaitDone
    split
    · exact reportsNone_respond_ok { s with seqMode := .none }
    · exact h
  · unfold trapAct
    split <;> exact reportsNone_of_log rfl nofun
  · unfold trapWaitDone trapIndexDone
    split
    · exact h
    · dsimp only
      split
      · exact reportsNone_respond_ok _
      · exact h

theorem chain_reportsNone (hchain : ReflTransGen EnabledStep s t) (h : ReportsNone s) : ReportsNone t := by
  induction hchain with
  | refl => exact h
  | tail _ hstep ih =>
    obtain ⟨-, rfl⟩ := hstep
    exact seqStep_reportsNone ih

theorem runToCompletion_reportsNone (h : ReportsNone s) : ReportsNone (runToCompletion s) :=
  chain_reportsNone (runToCompletion_chain s) h

theorem tuTick_reportsNone (s : State) : ReportsNone (tuTick s) := by
  have hlog : (countTick (observe .tuTick s)).log = .tuTick :: s.log := (countTick_keeps _).2
  exact runToCompletion_reportsNone (reportsNone_of_log hlog nofun)

theorem fire_reportsNone (s : State) : ReportsNone (fire s) := by
  by_cases h : s.stepsEmitted < s.stepBudget ∧ s.divisorCounter = 0#32
  · rw [fire_toggles h.1 h.2]
    exact reportsNone_of_log rfl nofun
  · rw [fire_divides h]
    exact reportsNone_of_log rfl nofun

/-! ### What a command reports -/

theorem startStep_reportsNone (count delay : Word) (s : State) : ReportsNone (startStep count delay s) := by
  unfold startStep
  split
  · exact reportsNone_respond_ok _
  · exact runToCompletion_reportsNone (reportsNone_of_log rfl nofun)

theorem ownEffect_init (ho : i.opcode = .init) : ownEffect i s = .next (bringUpDone (Config.bringUp s.draws) s) := by
  cases i <;> cases ho
  rfl

/-- The own effect of every command but INIT reports no condition. -/
theorem ownEffect_reportsNone (ho : i.opcode ≠ .init) (h : ownEffect i s = .next t) : ReportsNone t := by
  cases i with
  | init => exact absurd rfl ho
  | enable _ state =>
    dsimp only [ownEffect] at h
    split at h
    · cases h
      exact reportsNone_respond_ok _
    · cases h
  | step _ count delay =>
    cases h
    exact startStep_reportsNone count delay s
  | stepTimer =>
    cases h
    exact reportsNone_respond_ok _
  | stepTrapezoid =>
    cases h
    exact runToCompletion_reportsNone (reportsNone_of_log rfl nofun)
  | timerStop =>
    cases h
    exact reportsNone_respond_ok _

/-- A command that answers a next state reports too small an `argc`, or the disabled gate, or it has its own effect. -/
theorem exec_next_cases (h : exec i s = .next t) :
    (t = respond .missingArgument s ∧ i.argc.toNat < i.opcode.argsRequired) ∨
    (t = respond .driverDisabled s ∧ isMotion i.opcode = true ∧ s.oeN ≠ 0#1) ∨ ownEffect i s = .next t := by
  obtain ⟨-, horder⟩ := checksInOrder
  have hcase := horder i s (wellFormed_iff.mpr (argc_ne_three_of_exec h))
  rw [h] at hcase
  split_ifs at hcase with hsmall hinit htwo harmed hgate
  · exact .inl ⟨Host.Outcome.next.inj hcase, hsmall⟩
  · exact .inr (.inl ⟨Host.Outcome.next.inj hcase, isMotion_iff.mpr hgate.1, hgate.2⟩)
  · exact .inr (.inr hcase.symm)

/-- An INIT that answers a next state has done its bring-up (R104): it needs no argument, and the gate does not guard it. -/
theorem exec_init (ho : i.opcode = .init) (h : exec i s = .next t) : t = bringUpDone (Config.bringUp s.draws) s := by
  rcases exec_next_cases h with ⟨-, hsmall⟩ | ⟨-, hm, -⟩ | heff
  · rw [ho] at hsmall
    exact absurd hsmall (Nat.not_lt_zero _)
  · rw [ho] at hm
    cases hm
  · exact Host.Outcome.next.inj (heff.symm.trans (ownEffect_init ho))

/-- What it takes for a command to end with the response `r`, and what it has then done (R191 to R193); `OK` is open here. -/
def ReportOf (r : Response) (i : Instr) (s t : State) : Prop :=
  match r with
  | .ok => True
  | .missingArgument => t = respond .missingArgument s ∧ i.argc.toNat < i.opcode.argsRequired
  | .driverDisabled => t = respond .driverDisabled s ∧ isMotion i.opcode = true ∧ s.oeN ≠ 0#1
  | .peripheralInitFailure => i.opcode = .init ∧ Config.bringUp s.draws = .failure

theorem bringUpDone_reportOf {r : Response} (ho : i.opcode = .init)
    (hr : (bringUpDone (Config.bringUp s.draws) s).log.head? = some (.response r)) : ReportOf r i s t := by
  cases hdraw : Config.bringUp s.draws <;> rw [hdraw] at hr <;> cases hr
  · trivial
  · exact ⟨ho, hdraw⟩

/-- The last response of a command tells which condition it met. -/
theorem exec_reportOf {r : Response} (h : exec i s = .next t) (hr : t.log.head? = some (.response r)) :
    ReportOf r i s t := by
  rcases exec_next_cases h with ⟨rfl, hsmall⟩ | ⟨rfl, hm, he⟩ | heff
  · cases hr
    exact ⟨rfl, hsmall⟩
  · cases hr
    exact ⟨rfl, hm, he⟩
  · by_cases ho : i.opcode = .init
    · rw [exec_init ho h] at hr
      exact bringUpDone_reportOf ho hr
    · rw [ownEffect_reportsNone ho heff r hr]
      trivial

/-! ### The conditions -/

/-- The commands whose arguments are not all there (R191). -/
theorem argc_small_iff : i.argc.toNat < i.opcode.argsRequired ↔
    (i.opcode = .enable ∧ i.argc = 0#2) ∨
      ((i.opcode = .step ∨ i.opcode = .stepTimer) ∧ (i.argc = 0#2 ∨ i.argc = 1#2)) := by
  have hone : i.argc.toNat < 1 ↔ i.argc = 0#2 := by bv_omega
  have htwo : i.argc.toNat < 2 ↔ i.argc = 0#2 ∨ i.argc = 1#2 := by bv_omega
  cases i.opcode <;> simp [Opcode.argsRequired, hone, htwo]

/-- Settles O25: the first of the common checks raises it, and the last response tells that it did. -/
theorem missingArgumentExactly : Obligations.MissingArgumentExactly := by
  unfold Obligations.MissingArgumentExactly
  intro i s hwf
  have ha := wellFormed_iff.mp hwf
  have hreport : ∀ t, exec i s = .next t → t.log.head? = some (.response .missingArgument) →
      t = respond .missingArgument s ∧ i.argc.toNat < i.opcode.argsRequired := fun t h hr => exec_reportOf h hr
  refine ⟨⟨fun h => argc_small_iff.mp (hreport _ h rfl).2, fun h => ?_⟩, fun t h hr => (hreport t h hr).1⟩
  exact exec_missingArgument ha (argc_small_iff.mpr h)

/-- Settles O26: the gate's check raises it, the last response tells that it did, and ticks and firings report none. -/
theorem driverDisabledExactly : Obligations.DriverDisabledExactly := by
  unfold Obligations.DriverDisabledExactly
  refine ⟨fun i s hwf hargs hi hdisabled hmotion => ?_, fun i s t h hr => ?_,
    fun s => ⟨fun hr => ?_, fun hr => ?_⟩⟩
  · have he : s.oeN ≠ 0#1 := by simp [hdisabled]
    have hm : isMotion i.opcode = true := isMotion_iff.mpr (by tauto)
    have hb : brokenObligation i.opcode s = none := by
      rcases hmotion with ho | ⟨ho | ho, hact⟩ <;> rw [ho]
      · rfl
      · exact oneDiscipline_eq_none.mpr hact
      · exact oneDiscipline_eq_none.mpr hact
    exact exec_driverDisabled (wellFormed_iff.mp hwf) hargs (fun _ => hi) hb hm he
  · obtain ⟨hsame, hm, he⟩ : ReportOf .driverDisabled i s t := exec_reportOf h hr
    exact ⟨hsame, (BitVec.eq_zero_or_eq_one s.oeN).resolve_left he, isMotion_iff.mp hm⟩
  · cases tuTick_reportsNone s _ hr
  · cases fire_reportsNone s _ hr

/-- Settles O27: the draw of an INIT decides its report and its mark, and a FAILED block is not READY (R108). -/
theorem peripheralInitFailureExactly : Obligations.PeripheralInitFailureExactly := by
  unfold Obligations.PeripheralInitFailureExactly
  refine ⟨fun i s t h => ⟨⟨exec_reportOf h, ?_⟩, fun ho => ?_⟩, fun j s hfailed hwf ho hargs => ?_⟩
  · rintro ⟨ho, hdraw⟩
    rw [exec_init ho h, hdraw]
    rfl
  · rw [exec_init ho h]
    cases Config.bringUp s.draws <;> rfl
  · have hi : s.initState ≠ .ready := by simp [hfailed]
    exact exec_notInitialised (wellFormed_iff.mp hwf) hargs ho hi

end Sys2Proof.Machine
end

section
/-! SUPPORT. Hazards (70_reset_and_hazards.md): one discipline at a time (R231), and the states from which no pin write
occurs without a new command (R223). -/

namespace Sys2Proof.Machine

variable {s t : State}

/-! ### One discipline at a time -/

/-- A generator with its budget used up is not active, armed or not (R231). -/
theorem active_of_exhausted (hused : s.stepsEmitted = s.stepBudget) : active s = false := by
  simp [active, hused]

/-- A STEP_TRAPEZOID in a block that is ready and whose generator is active is refused, whatever its arguments. -/
theorem exec_stepTrapezoid_active {argc : BitVec 2} (arg0 arg1 : Word) (ha : argc ≠ 3#2) (hi : s.initState = .ready)
    (hact : active s = true) : exec (.stepTrapezoid argc arg0 arg1) s = .refused .twoDisciplines :=
  exec_brokenObligation (i := .stepTrapezoid argc arg0 arg1) ha (Nat.zero_le argc.toNat) (fun _ => hi)
    (brokenObligation_twoDisciplines (.inr rfl) hact)

/-- Settles O30: the active generator breaks the obligation of both commands, and the exhausted one lets both start. -/
theorem oneDisciplineAtATime : Obligations.OneDisciplineAtATime := by
  unfold Obligations.OneDisciplineAtATime
  refine fun s hi hrun => ⟨fun hleft count delay argc arg0 arg1 ha => ?_,
    fun hused he count delay argc arg0 arg1 ha => ?_⟩
  · have hact : active s = true := active_iff.mpr ⟨hrun, hleft⟩
    exact ⟨exec_step_active count delay hi hact, exec_stepTrapezoid_active arg0 arg1 ha hi hact⟩
  · have hact : active s = false := active_of_exhausted hused
    exact ⟨⟨_, exec_step count delay hi he hact⟩, ⟨_, exec_stepTrapezoid arg0 arg1 ha hi hact he⟩⟩

/-! ### Quiescence -/

theorem quiescent_iff :
    quiescent s = true ↔ s.seqMode = .none ∧ (s.timerRun = false ∨ s.stepsEmitted = s.stepBudget) := by
  simp [quiescent, armed, exhausted]

/-- An event that no pin shows: the pins and the record of their writes stay, a quiescent state stays quiescent, and no
request joins the host's. -/
structure Rests (s t : State) : Prop where
  pins : SamePins s t
  writes : latchWritesIn t.log = latchWritesIn s.log
  quiet : quiescent t = quiescent s
  host : t.host ⊆ s.host

theorem Rests.rfl (s : State) : Rests s s := ⟨⟨Eq.refl _, Eq.refl _, Eq.refl _⟩, Eq.refl _, Eq.refl _, List.Subset.refl _⟩

theorem Rests.trans {u : State} (h : Rests s t) (h' : Rests t u) : Rests s u where
  pins := ⟨h'.pins.1.trans h.pins.1, h'.pins.2.1.trans h.pins.2.1, h'.pins.2.2.trans h.pins.2.2⟩
  writes := h'.writes.trans h.writes
  quiet := h'.quiet.trans h.quiet
  host := List.Subset.trans h'.host h.host

/-- A tick of an idle block counts nothing and takes no sequencer step. -/
theorem tuTick_rests (hm : s.seqMode = .none) : Rests s (tuTick s) ∧ (tuTick s).agenda = s.agenda := by
  rw [tuTick_idle hm]
  exact ⟨⟨⟨rfl, rfl, rfl⟩, rfl, rfl, List.Subset.refl _⟩, rfl⟩

/-- The timer's turn passes while it is stopped, and with the budget used up a firing only counts its divisor. -/
theorem fireTurn_rests (hgen : s.timerRun = false ∨ s.stepsEmitted = s.stepBudget) :
    Rests s (fireTurn s) ∧ (fireTurn s).agenda = s.agenda := by
  cases hrun : s.timerRun with
  | false =>
    rw [fireTurn_stopped hrun]
    exact ⟨.rfl s, rfl⟩
  | true =>
    have hused : s.stepsEmitted = s.stepBudget := hgen.resolve_left (by simp [hrun])
    rw [fireTurn_armed hrun, fire_exhausted (BitVec.le_of_eq hused.symm)]
    exact ⟨⟨⟨rfl, rfl, rfl⟩, rfl, rfl, List.Subset.refl _⟩, rfl⟩

/-- The host's turn with no command among its requests passes, or it is a read, which changes no register. -/
theorem hostTurn_rests (hcmd : ∀ w, .cmd w ∉ s.host) (h : hostTurn s = .next t) :
    Rests s t ∧ t.agenda = s.agenda := by
  unfold hostTurn at h
  split at h
  · cases h
    exact ⟨.rfl s, rfl⟩
  split at h
  · cases h
    exact ⟨.rfl s, rfl⟩
  · next r q hh =>
    cases r with
    | cmd w => exact absurd (hh ▸ List.mem_cons_self) (hcmd w)
    | read n =>
      obtain ⟨v, k, -, rfl⟩ := regRead_next h
      exact ⟨⟨⟨rfl, rfl, rfl⟩, rfl, rfl, hh ▸ List.subset_cons_self _ _⟩, rfl⟩

/-- No turn but a reset moves a pin of a quiescent block whose host holds no command. -/
theorem takeTurn_rests {turn : Turn} (hq : quiescent s = true) (hcmd : ∀ w, .cmd w ∉ s.host) (hreset : turn ≠ .reset)
    (h : takeTurn turn s = .next t) : Rests s t ∧ t.agenda = s.agenda := by
  obtain ⟨hm, hgen⟩ := quiescent_iff.mp hq
  cases turn with
  | host => exact hostTurn_rests hcmd h
  | tuTick =>
    cases h
    exact tuTick_rests hm
  | fire =>
    cases h
    exact fireTurn_rests hgen
  | reset => exact absurd rfl hreset

/-- A run of at least one step that answers a next state is that step and the run from there. -/
theorem run_succ_next {M : Host.Core} {s t : M.State} {k : Nat} (h : M.run (k + 1) s = .next t) :
    ∃ u, M.step s = .next u ∧ M.run k u = .next t := by
  rw [Host.Core.run] at h
  split at h
  · next u hu => exact ⟨u, hu, h⟩
  · cases h
  · cases h

/-- The induction over the events of a run: each leaves a quiescent block quiescent and its host without a command. -/
theorem run_rests {events : List Turn} (hs : s.agenda = events) (hq : quiescent s = true)
    (hreset : ∀ e ∈ events, e ≠ .reset) (hcmd : ∀ w, .cmd w ∉ s.host)
    (h : Sys2Proof.core.run events.length s = .next t) : Rests s t := by
  induction events generalizing s with
  | nil =>
    obtain rfl := Host.Outcome.next.inj h
    exact .rfl s
  | cons e es ih =>
    obtain ⟨u, hstep, hrun⟩ := run_succ_next h
    have hturn : takeTurn e { s with agenda := es } = .next u := (step_turn hs).symm.trans hstep
    obtain ⟨hrests, hagenda⟩ := takeTurn_rests (s := { s with agenda := es }) hq hcmd (hreset e List.mem_cons_self) hturn
    have hrest := ih hagenda (hrests.quiet.trans hq) (fun e' he' => hreset e' (List.mem_cons_of_mem e he'))
      (fun w hw => hcmd w (hrests.host hw)) hrun
    exact .trans ⟨hrests.pins, hrests.writes, hrests.quiet, hrests.host⟩ hrest

/-- Settles O49: a quiescent block rests at every event of the run. -/
theorem quiescentWritesNoPin : Obligations.QuiescentWritesNoPin := by
  unfold Obligations.QuiescentWritesNoPin
  intro s t events hq hreset hcmd h
  have hrests : Rests { s with agenda := events } t := run_rests rfl hq hreset hcmd h
  exact ⟨hrests.pins, hrests.writes, hrests.quiet.trans hq⟩

end Sys2Proof.Machine
end

section
/-! SUPPORT. The encoder and the decoder are inverse to each other (30_encoding.md R80, R86), and the worked encodings. -/

namespace Sys2Proof

variable {w : CommandWord} {i : Instr}

/-- The word of any command holds each of its fields. -/
theorem encode_fields (i : Instr) : Laws.EncodedFields.Statement i := word_fields _ _ _ _ _

theorem decode_encode (ha : i.argc ≠ 3#2) : decode (encode i) = .ok i := by
  obtain ⟨hop, hrsv, hargc, harg0, harg1⟩ := encode_fields i
  simp [decode, hop, hrsv, hargc, ha, harg0, harg1, ofCode_code, instr_opcode]

/-- A word is its five fields, one after another. -/
theorem word_of_fields (w : CommandWord) : w.op ++ w.rsv ++ w.argc ++ w.arg0 ++ w.arg1 = w := by
  have hw := w.isLt
  apply BitVec.eq_of_toNat_eq
  rw [word_toNat]
  simp only [CommandWord.op, CommandWord.rsv, CommandWord.argc, CommandWord.arg0, CommandWord.arg1,
    BitVec.extractLsb'_toNat, Nat.shiftRight_eq_div_pow]
  omega

/-- The command that a legal word decodes to has the word's own fields, so its word is that word again. -/
theorem encode_of_decode (h : decode w = .ok i) : encode i = w ∧ i.argc ≠ 3#2 := by
  rcases decode_cases w with ⟨-, he⟩ | ⟨-, he⟩ | ⟨-, he⟩ | ⟨hrsv, ha, -, -, o, hcode, hok⟩
  · simp [he] at h
  · simp [he] at h
  · simp [he] at h
  · obtain rfl := Except.ok.inj (hok.symm.trans h)
    obtain ⟨hop, hargc, harg0, harg1⟩ := opcode_instr o w.argc w.arg0 w.arg1
    refine ⟨?_, by rwa [hargc]⟩
    rw [encode, hop, hargc, harg0, harg1, hcode, ← hrsv]
    exact word_of_fields w

/-- Settles O1: the fields of the word are those of the command, and the code names its opcode. -/
theorem decodeOfEncode : Obligations.DecodeOfEncode := by
  unfold Obligations.DecodeOfEncode
  exact fun i hwf => decode_encode (Machine.wellFormed_iff.mp hwf)

/-- Settles O2: a legal word is put together again from the fields that the decoder read. -/
theorem encodeOfDecode : Obligations.EncodeOfDecode := by
  unfold Obligations.EncodeOfDecode
  intro w i h
  obtain ⟨hword, ha⟩ := encode_of_decode h
  exact ⟨hword, Machine.wellFormed_iff.mpr ha⟩

/-- Settles O5: the decoder evaluated on each of the nine words. -/
theorem workedEncodings : Obligations.WorkedEncodings := by
  unfold Obligations.WorkedEncodings
  exact ⟨rfl, rfl, rfl, rfl, rfl, rfl, rfl, rfl, rfl⟩

end Sys2Proof
end

section
/-! SUPPORT. The event Reset and what follows it (70_reset_and_hazards.md section 1), a read before the first STEP_TIMER
(20_memory.md R64), and the acceptance of a word (30_encoding.md R89). -/

namespace Sys2Proof.Machine

variable {s : State}

/-! ### Reset, and an idle block -/

/-- Any number of ticks of an idle block are observed and change no register. -/
theorem ticks_idle (hm : s.seqMode = .none) (k : Nat) :
    ticks k s = { s with log := List.replicate k .tuTick ++ s.log } := by
  induction k with
  | zero => rfl
  | succ k ih =>
    have hidle : (ticks k s).seqMode = .none := by
      rw [ih]
      exact hm
    rw [ticks, tuTick_idle hidle, ih]
    rfl

/-- The record of ticks alone holds no pin write and no response. -/
theorem replicate_tuTick_counts (k : Nat) (log : List Obs) :
    pinWritesIn (List.replicate k .tuTick ++ log) = pinWritesIn log ∧
      togglesIn (List.replicate k .tuTick ++ log) = togglesIn log ∧
      highSetsIn (List.replicate k .tuTick ++ log) = highSetsIn log ∧
      responsesIn (List.replicate k .tuTick ++ log) = responsesIn log := by
  induction k with
  | zero => exact ⟨rfl, rfl, rfl, rfl⟩
  | succ k ih => exact ih

/-- Settles O7: the reset makes the block idle, and the ticks of an idle block are only observed. -/
theorem resetRestoresRegisters : Obligations.ResetRestoresRegisters := by
  unfold Obligations.ResetRestoresRegisters
  refine fun s rest ha => ⟨resetEvent { s with agenda := rest }, step_turn ha, rfl, rfl, rfl, rfl, rfl, rfl, rfl, rfl,
    rfl, fun k => ?_⟩
  obtain ⟨hwrites, -, -, hresponses⟩ := replicate_tuTick_counts k (.reset :: s.log)
  rw [ticks_idle rfl]
  exact ⟨rfl, hwrites, hresponses⟩

/-- Settles O8: a tick of an idle block is only observed, and the turn of a stopped timer passes. -/
theorem nothingMovesAfterReset : Obligations.NothingMovesAfterReset := by
  unfold Obligations.NothingMovesAfterReset
  intro s rest hrun hm hturn
  rcases hturn with ha | ha
  · refine ⟨tuTick { s with agenda := rest }, step_turn ha, ?_⟩
    rw [tuTick_idle (s := { s with agenda := rest }) hm]
    exact ⟨sameRegisters_observe .tuTick { s with agenda := rest }, rfl, rfl⟩
  · exact ⟨_, step_fire_stopped hrun ha, sameRegisters_agenda_host s rest s.host, rfl, rfl⟩

/-! ### The host's requests -/

/-- A read of the RateProgram before the first STEP_TIMER since reset returns the next draw. -/
theorem regRead_unwritten {n : Nat} {v : Word} (hv : regContent n s = some v) (hn : n ≠ 0) (hw : s.rateWritten = false) :
    regRead n s = .next { s with draws := s.draws + 1, log := .readValue n (Config.unwrittenRead s.draws) :: s.log } := by
  have hu : regUnwritten n s = true := by simp [regUnwritten, hn, hw]
  simp [regRead, hv, hu, observe]

/-- Settles O32: registers 1 to 4 hold the RateProgram, and no register has a number above 4. -/
theorem readBeforeFirstArm : Obligations.ReadBeforeFirstArm := by
  unfold Obligations.ReadBeforeFirstArm
  refine fun s n => ⟨fun hlow hhigh hw => ?_, fun hhigh => ?_⟩
  · match n, hlow, hhigh with
    | 1, _, _ | 2, _, _ | 3, _, _ | 4, _, _ => exact regRead_unwritten rfl (by decide) hw
  · match n, hhigh with
    | _ + 5, _ => rfl

theorem decode_of_decodeTableWord {nbits w : Nat} {i : Instr} (h : decodeTableWord nbits w = some i) :
    decode (tableWord nbits w) = .ok i := by
  unfold decodeTableWord at h
  split at h
  · next hok => rwa [Option.some.inj h] at hok
  · cases h

/-- Settles O46: the turn of a ready port is the acceptance of its word, and `withFetchWord` makes such a turn. -/
theorem stepRunsDecoded : Obligations.StepRunsDecoded := by
  unfold Obligations.StepRunsDecoded
  refine ⟨fun s rest w q i ha hm hh hw => ?_, fun s nbits w i h => ?_⟩
  · rw [step_host ha hm hh]
    exact acceptWord_legal hw
  · rw [step_host (s := s.withFetchWord nbits w) rfl rfl rfl]
    exact acceptWord_legal (decode_of_decodeTableWord h)

end Sys2Proof.Machine
end

section
/-! SUPPORT. The states in which the two blocking commands leave the block (41_immediate_stepper.md sections 1 to 3,
43_trapezoidal_profiler.md sections 2 and 3). -/

namespace Sys2Proof.Machine

/-- A count other than 0 loads a number of toggles other than 0. -/
theorem togglesOf_ne_zero {c : Word} (hc : c ≠ 0#32) : togglesOf c ≠ 0#33 := fun hzero => by
  have hmag := magOf_ne_zero hc
  have htoggles := togglesOf_toNat c
  rw [hzero, BitVec.toNat_ofNat] at htoggles
  omega

/-- A STEP with a count and a delay other than 0 makes its first toggle and begins the wait after it (R120, R123). -/
theorem startStep_eq {count delay : Word} (hc : count ≠ 0#32) (hd : delay ≠ 0#32) (s : State) :
    startStep count delay s = { s with
      dirPin := if 0 < count.toInt then Config.dirCw else ~~~Config.dirCw
      stepPin := ~~~s.stepPin
      seqRemaining := BitVec.ofNat 33 (2 * count.toInt.natAbs - 1)
      seqDelay := delay
      waitCnt := delay
      seqPhase := .wait
      seqMode := .imm
      log := .stepToggle 1 :: .dirSet (if 0 < count.toInt then Config.dirCw else ~~~Config.dirCw) :: s.log } := by
  rw [startStep, if_neg (magOf_ne_zero hc), runToCompletion_immAct rfl rfl hd, ← dirLevel_dirOf count,
    ← togglesOf_pred hc]
  rfl

/-- A STEP with a count other than 0 and delay 0 is over in its own event (R126). -/
theorem startStep_delay_zero {count : Word} (hc : count ≠ 0#32) (s : State) :
    startStep count 0#32 s = { s with
      dirPin := if 0 < count.toInt then Config.dirCw else ~~~Config.dirCw
      seqRemaining := 0#33
      seqDelay := 0#32
      waitCnt := 0#32
      seqPhase := .wait
      seqMode := .none
      log := .response .ok :: .stepToggle (2 * count.toInt.natAbs) ::
        .dirSet (if 0 < count.toInt then Config.dirCw else ~~~Config.dirCw) :: s.log } := by
  have hmag := magOf_ne_zero hc
  have hburst : burstCount (loadStep count 0#32 (dirSet (dirOf count) s)) = 2 * magOf count :=
    (burstCount_of_ne_zero (togglesOf_ne_zero hc)).trans (togglesOf_toNat count)
  have hsome : 2 * magOf count ≠ 0 := by omega
  have hbusy : (loadStep count 0#32 (dirSet (dirOf count) s)).seqMode ≠ .none := nofun
  rw [startStep, if_neg hmag, runToCompletion_burst rfl rfl (seqEnabled_act hbusy rfl), ← dirLevel_dirOf count]
  simp only [immBurst, hburst, levelAfter_even, if_neg hsome]
  rfl

/-- Settles O16: the checks pass, and the first toggle begins its wait. -/
theorem stepStarts : Obligations.StepStarts := by
  unfold Obligations.StepStarts
  intro count delay s hi hact he hc hd
  rw [exec_step count delay hi he hact, startStep_eq hc hd]

/-- Settles O18: the checks pass, and the closed form makes all toggles at once. -/
theorem stepDelayZero : Obligations.StepDelayZero := by
  unfold Obligations.StepDelayZero
  intro count s hi hact he hc
  rw [exec_step count 0#32 hi he hact, startStep_delay_zero hc]

/-- Settles O21: the checks pass, and the first write of the step pin begins its wait. -/
theorem stepTrapezoidStarts : Obligations.StepTrapezoidStarts := by
  unfold Obligations.StepTrapezoidStarts
  intro argc arg0 arg1 s ha hi hact he
  rw [exec_stepTrapezoid arg0 arg1 ha hi hact he, startProfile_eq]

end Sys2Proof.Machine
end

section
/-! SUPPORT. The invariant (10_state.md section 12) holds at reset and is kept by a tick, a firing, a command and so by every
step; and with it no pulse is made while the gate reports disabled (40_port_and_gate.md section 7). -/

namespace Sys2Proof.Machine

variable {s t : State} {i : Instr}

/-! ### An idle block, and reset -/

/-- In an idle block the invariant says only what it says of the generator. -/
theorem runInv_of_idle (hm : s.seqMode = .none) (h : rateInv s) : RunInv s :=
  ⟨h, fun hbusy => absurd hm (busy_eq_true.mp hbusy), fun himm => by simp [hm] at himm,
    fun htrap => by simp [hm] at htrap⟩

theorem runInv_afterReset (c : ResetContents) (draws : Nat) (host : List Request) (agenda : List Turn) (log : List Obs) :
    RunInv (State.afterReset c draws host agenda log) :=
  runInv_of_idle rfl ⟨nofun, nofun⟩

/-- Settles O9: right after reset no STEP_TIMER has completed, the timer is stopped and the block is idle. -/
theorem invariantAtReset : Obligations.InvariantAtReset := runInv_afterReset _ _ _ _ _

/-! ### A tick -/

/-- What no sequencer step writes is all that the generator's part of the invariant reads. -/
theorem SeqFrame.rateInv (hframe : SeqFrame s t) (h : rateInv s) : rateInv t := by
  unfold Machine.rateInv
  rw [hframe.rateWritten, hframe.stepsEmitted, hframe.stepBudget, hframe.rateDivisor, hframe.divisorCounter,
    hframe.timerRun, hframe.initState]
  exact h

/-- A tick while a command is in progress: the wait it counts, or the wait it begins, is part of the delay, and a profile
goes on in step with its closed form. -/
theorem tuTick_busy_runInv (h : RunInv s) (hm : s.seqMode ≠ .none) : RunInv (tuTick s) := by
  have hrate : rateInv (tuTick s) := (tuTick_frame s).rateInv h.1
  obtain ⟨-, hbusy, himm, htrap⟩ := id h
  obtain ⟨hp, hw, he, hi, hact⟩ := hbusy (busy_eq_true.mpr hm)
  rcases tuTick_cases h hm with ⟨hcount, e⟩ | ⟨-, -, -, e⟩ | ⟨hone, hmode, hr, e⟩ | ⟨-, hmode, hh, e⟩ | ⟨-, -, -, -, e⟩ |
    ⟨-, hmode, hh, hidx, j, d, p, e, hj, hd, hphase⟩ <;> rw [e] at hrate ⊢
  · have hpos : 0 < (s.waitCnt - 1#32).toNat := by bv_omega
    have hless : s.waitCnt - 1#32 ≤ s.waitCnt := by bv_omega
    refine ⟨hrate, fun _ => ⟨hp, hpos, he, hi, hact⟩, fun hmode => ?_, fun hmode => ?_⟩
    · obtain ⟨hr, hle⟩ := himm hmode
      exact ⟨hr, BitVec.le_trans hless hle⟩
    · obtain ⟨hidx, hd, hphase, hle, hpin⟩ := htrap hmode
      exact ⟨hidx, hd, hphase, BitVec.le_trans hless hle, hpin⟩
  · exact runInv_of_idle rfl hrate
  · obtain ⟨hlt, hle⟩ := himm hmode
    have hpos : 0 < s.seqDelay.toNat := by bv_omega
    have hfewer : (s.seqRemaining - 1#33).toNat < 2 ^ 32 := by bv_omega
    exact ⟨hrate, fun _ => ⟨hp, hpos, he, hi, hact⟩, fun _ => ⟨hfewer, BitVec.le_refl _⟩,
      fun htrap => by simp [hmode] at htrap⟩
  · obtain ⟨hidx, hd, hphase, -, -⟩ := htrap hmode
    have hpos : 0 < s.trapDelay.toNat := trapDelay_pos h hmode
    exact ⟨hrate, fun _ => ⟨hp, hpos, he, hi, hact⟩, fun himm => by simp [hmode] at himm,
      fun _ => ⟨hidx, hd, hphase, BitVec.le_refl _, rfl⟩⟩
  · exact runInv_of_idle rfl hrate
  · have hpos : 0 < d.toNat := by
      rw [hd]
      exact (profileDelay_pos _ (by omega)).1
    have hin : j.toNat < Config.trapTotal := by
      rw [hj]
      exact Nat.succ_lt_succ hidx
    exact ⟨hrate, fun _ => ⟨hp, hpos, he, hi, hact⟩, fun himm => by simp [hmode] at himm,
      fun _ => ⟨hin, hj ▸ hd, hj ▸ hphase, BitVec.le_refl _, rfl⟩⟩

theorem tuTick_runInv (h : RunInv s) : RunInv (tuTick s) := by
  by_cases hm : s.seqMode = .none
  · rw [tuTick_idle hm]
    exact h
  · exact tuTick_busy_runInv h hm

/-! ### A firing -/

/-- An armed generator that is not active has its budget used up. -/
theorem exhausted_of_not_active (hrun : s.timerRun = true) (hact : active s = false) : s.stepBudget ≤ s.stepsEmitted :=
  BitVec.not_lt.mp fun hleft => by simp [active_iff.mpr ⟨hrun, hleft⟩] at hact

/-- A firing makes no toggle beyond the budget. -/
theorem fire_stepsEmitted_le (h : s.stepsEmitted ≤ s.stepBudget) : (fire s).stepsEmitted ≤ (fire s).stepBudget := by
  by_cases htoggle : s.stepsEmitted < s.stepBudget ∧ s.divisorCounter = 0#32
  · obtain ⟨hleft, hzero⟩ := htoggle
    rw [fire_toggles hleft hzero]
    bv_omega
  · rw [fire_divides htoggle]
    exact h

/-- A firing leaves the counter inside the divisor period. -/
theorem fire_divisorCounter_lt (h : s.divisorCounter < s.rateDivisor) : (fire s).divisorCounter < s.rateDivisor := by
  rw [fire_divisorCounter]
  split <;> bv_omega

theorem fire_rateInv (h : rateInv s) (hrun : s.timerRun = true) : rateInv (fire s) := by
  obtain ⟨hgenerator, harmed⟩ := h
  obtain ⟨hw, hi⟩ := harmed hrun
  obtain ⟨hle, hbudget, hcounter⟩ := hgenerator hw
  have hframe := fire_frame s
  refine ⟨fun _ => ⟨fire_stepsEmitted_le hle, hframe.stepBudget ▸ hbudget, fun hne => ?_⟩,
    fun _ => ⟨hframe.rateWritten.trans hw, hframe.initState.trans hi⟩⟩
  rw [hframe.rateDivisor] at hne ⊢
  exact fire_divisorCounter_lt (hcounter hne)

/-- A firing while a command is in progress is one of an exhausted generator, and moves no pin. -/
theorem fire_runInv (h : RunInv s) (hrun : s.timerRun = true) : RunInv (fire s) := by
  have hrate := fire_rateInv h.1 hrun
  by_cases hm : s.seqMode = .none
  · exact runInv_of_idle ((fire_frame s).sequencer.1.trans hm) hrate
  · obtain ⟨-, hbusy, himm, htrap⟩ := h
    obtain ⟨-, -, -, -, hact⟩ := hbusy (busy_eq_true.mpr hm)
    rw [fire_exhausted (exhausted_of_not_active hrun hact)] at hrate ⊢
    exact ⟨hrate, hbusy, himm, htrap⟩

theorem fireTurn_runInv (h : RunInv s) : RunInv (fireTurn s) := by
  cases hrun : s.timerRun with
  | false => rwa [fireTurn_stopped hrun]
  | true =>
    rw [fireTurn_armed hrun]
    exact fire_runInv h hrun

/-! ### A command -/

/-- A STEP that is over at once leaves an idle block; any other leaves one toggle made and its wait begun. -/
theorem startStep_runInv (count delay : Word) (hm : s.seqMode = .none) (h : rateInv s) (hi : s.initState = .ready)
    (he : s.oeN = 0#1) (hact : active s = false) : RunInv (startStep count delay s) := by
  by_cases hc : count = 0#32
  · rw [hc, startStep_zero]
    exact runInv_of_idle hm h
  by_cases hd : delay = 0#32
  · rw [hd, startStep_delay_zero hc]
    exact runInv_of_idle rfl h
  · have hpos : 0 < delay.toNat := by bv_omega
    have hfewer : (BitVec.ofNat 33 (2 * count.toInt.natAbs - 1)).toNat < 2 ^ 32 := by
      have hmag : count.toInt.natAbs ≤ 2 ^ 31 := magOf_le count
      rw [BitVec.toNat_ofNat]
      omega
    rw [startStep_eq hc hd]
    exact ⟨h, fun _ => ⟨rfl, hpos, he, hi, hact⟩, fun _ => ⟨hfewer, BitVec.le_refl _⟩, nofun⟩

/-- A STEP_TRAPEZOID leaves the profile at the start of index 0. -/
theorem startProfile_runInv (h : rateInv s) (hi : s.initState = .ready) (he : s.oeN = 0#1) (hact : active s = false) :
    RunInv (runToCompletion (loadProfile (dirSet .clockwise s))) := by
  have htrap := (BeginsHalf.startProfile s).trapInv
  have hpos : 0 < (10#32).toNat := by decide
  rw [startProfile_eq] at htrap ⊢
  exact ⟨h, fun _ => ⟨rfl, hpos, he, hi, hact⟩, nofun, htrap⟩

/-- An arm clears both counters, under a budget that is a magnitude. -/
theorem arm_rateInv (budget divisor : Word) (hi : s.initState = .ready) : rateInv (arm budget divisor s) := by
  have hbudget : (budgetOf budget).toNat ≤ 2 ^ 31 := (budgetOf_toNat budget).trans_le (magOf_le budget)
  have hnone : 0#32 ≤ budgetOf budget := by bv_omega
  have hcounter : divisor ≠ 0#32 → 0#32 < divisor := fun hne => by bv_omega
  exact ⟨fun _ => ⟨hnone, hbudget, hcounter⟩, fun _ => ⟨rfl, hi⟩⟩

theorem exec_runInv (hm : s.seqMode = .none) (h : rateInv s) (hexec : exec i s = .next t) : RunInv t := by
  rcases exec_next hexec with rfl | rfl | ⟨heff, -, -⟩
  · exact runInv_of_idle hm h
  · exact runInv_of_idle hm h
  · cases i with
    | init =>
      obtain ⟨hstopped, rfl⟩ := heff
      exact runInv_of_idle hm ⟨h.1, fun hrun => absurd (hstopped.symm.trans hrun) nofun⟩
    | enable =>
      obtain ⟨-, -, rfl⟩ := heff
      exact runInv_of_idle hm h
    | step _ count delay =>
      obtain ⟨hi, hact, he, rfl⟩ := heff
      exact startStep_runInv count delay hm h hi he hact
    | stepTimer _ budget divisor =>
      obtain ⟨hi, -, rfl⟩ := heff
      exact runInv_of_idle hm (arm_rateInv budget divisor hi)
    | stepTrapezoid =>
      obtain ⟨hi, hact, he, rfl⟩ := heff
      exact startProfile_runInv h hi he hact
    | timerStop =>
      obtain ⟨-, rfl⟩ := heff
      exact runInv_of_idle hm ⟨h.1, nofun⟩

/-! ### Every step -/

theorem step_runInv (h : RunInv s) (hstep : step s = .next t) : RunInv t := by
  rcases step_cases hstep with ⟨-, rfl⟩ | ⟨rest, -, rfl⟩ | ⟨rest, -, rfl⟩ | ⟨rest, -, rfl⟩ | ⟨rest, -, -, rfl⟩ |
    ⟨rest, w, q, i, -, hm, -, -, hexec⟩ | ⟨rest, n, q, -, -, -, hread⟩
  · exact h
  · exact runInv_afterReset _ _ _ _ _
  · exact tuTick_runInv (s := { s with agenda := rest }) h
  · exact fireTurn_runInv (s := { s with agenda := rest }) h
  · exact h
  · exact exec_runInv (s := { s with agenda := rest, host := q }) hm h.1 hexec
  · obtain ⟨v, k, -, rfl⟩ := regRead_next hread
    exact h

/-- Settles O10: event by event. -/
theorem invariantKept : Obligations.InvariantKept := by
  unfold Obligations.InvariantKept
  exact fun s t h hstep => step_runInv h hstep

/-! ### The disabled gate -/

/-- A command in progress has the gate enabled (R42 (e)), so a disabled block is idle. -/
theorem idle_of_disabled (h : RunInv s) (he : s.oeN = 1#1) : s.seqMode = .none := by
  by_contra hm
  obtain ⟨-, hbusy, -, -⟩ := h
  obtain ⟨-, -, henabled, -, -⟩ := hbusy (busy_eq_true.mpr hm)
  simp [he] at henabled

/-- The timer's turn writes no step pin unless the generator is active. -/
theorem fireTurn_stepPin (hact : active s = false) :
    (fireTurn s).stepPin = s.stepPin ∧ pinWritesIn (fireTurn s).log = pinWritesIn s.log := by
  cases hrun : s.timerRun with
  | false =>
    rw [fireTurn_stopped hrun]
    exact ⟨rfl, rfl⟩
  | true =>
    rw [fireTurn_armed hrun, fire_exhausted (exhausted_of_not_active hrun hact)]
    exact ⟨rfl, rfl⟩

/-- A command accepted while the gate is disabled writes no step pin: the three motion commands only report. -/
theorem exec_disabled_stepPin (he : s.oeN = 1#1) (h : exec i s = .next t) :
    t.stepPin = s.stepPin ∧ pinWritesIn t.log = pinWritesIn s.log := by
  have hnot : s.oeN ≠ 0#1 := by simp [he]
  rcases exec_next h with rfl | rfl | ⟨heff, -, -⟩
  · exact ⟨rfl, rfl⟩
  · exact ⟨rfl, rfl⟩
  · cases i with
    | init =>
      obtain ⟨-, rfl⟩ := heff
      exact ⟨rfl, rfl⟩
    | enable =>
      obtain ⟨-, -, rfl⟩ := heff
      exact ⟨rfl, rfl⟩
    | step =>
      obtain ⟨-, -, henabled, -⟩ := heff
      exact absurd henabled hnot
    | stepTimer =>
      obtain ⟨-, henabled, -⟩ := heff
      exact absurd henabled hnot
    | stepTrapezoid =>
      obtain ⟨-, -, henabled, -⟩ := heff
      exact absurd henabled hnot
    | timerStop =>
      obtain ⟨-, rfl⟩ := heff
      exact ⟨rfl, rfl⟩

/-- Settles O48: a disabled block is idle, so of all events only a firing of an active generator could toggle. -/
theorem noPulseWhileDisabled : Obligations.NoPulseWhileDisabled := by
  unfold Obligations.NoPulseWhileDisabled
  intro s t h he hreset hfire hstep
  rcases step_cases hstep with ⟨-, rfl⟩ | ⟨rest, ha, -⟩ | ⟨rest, -, rfl⟩ | ⟨rest, ha, rfl⟩ | ⟨rest, -, -, rfl⟩ |
    ⟨rest, w, q, i, -, -, -, -, hexec⟩ | ⟨rest, n, q, -, -, -, hread⟩
  · exact ⟨rfl, rfl⟩
  · exact absurd ha (hreset rest)
  · rw [tuTick_idle (s := { s with agenda := rest }) (idle_of_disabled h he)]
    exact ⟨rfl, rfl⟩
  · exact fireTurn_stepPin (s := { s with agenda := rest }) (hfire.resolve_left fun hnone => hnone rest ha)
  · exact ⟨rfl, rfl⟩
  · exact exec_disabled_stepPin (s := { s with agenda := rest, host := q }) he hexec
  · obtain ⟨v, k, -, rfl⟩ := regRead_next hread
    exact ⟨rfl, rfl⟩

end Sys2Proof.Machine
end

section
/-! SUPPORT. A tick and a firing at the same instant (20_memory.md R76, 60_exceptions.md R199): the sequencer reads neither
the divisor counter nor the observation, so a firing that changes only these commutes with a tick. -/

namespace Sys2Proof.Machine

variable {s t : State}

/-- `t` is `s` with another divisor counter and another observation. -/
def SameButDivider (s t : State) : Prop := ∃ c log, t = { s with divisorCounter := c, log := log }

theorem SameButDivider.of_eq {c : Word} {log : List Obs} (h : t = { s with divisorCounter := c, log := log }) :
    SameButDivider s t := ⟨c, log, h⟩

/-- Two states that differ from a third in these alone have the same registers if their divisor counters agree. -/
theorem SameButDivider.sameRegisters {u : State} (hs : SameButDivider u s) (ht : SameButDivider u t)
    (hc : t.divisorCounter = s.divisorCounter) : SameRegisters s t := by
  obtain ⟨c, log, rfl⟩ := hs
  obtain ⟨c', log', rfl⟩ := ht
  exact ⟨⟨rfl, rfl, rfl⟩, ⟨rfl, rfl⟩, ⟨rfl, rfl, rfl, hc⟩, ⟨rfl, rfl, rfl, rfl, rfl, rfl, rfl, rfl, rfl⟩⟩

/-! ### The sequencer -/

theorem seqEnabled_sameButDivider (h : SameButDivider s t) : seqEnabled t = seqEnabled s := by
  obtain ⟨c, log, rfl⟩ := h
  rfl

theorem immWaitDone_sameButDivider (h : SameButDivider s t) : SameButDivider (immWaitDone s) (immWaitDone t) := by
  obtain ⟨c, log, rfl⟩ := h
  simp only [immWaitDone]
  split <;> exact ⟨c, _, rfl⟩

theorem trapAdjust_sameButDivider (h : SameButDivider s t) : SameButDivider (trapAdjust s) (trapAdjust t) := by
  obtain ⟨c, log, rfl⟩ := h
  simp only [trapAdjust]
  split <;> exact ⟨c, log, rfl⟩

theorem trapIndexDone_sameButDivider (h : SameButDivider s t) : SameButDivider (trapIndexDone s) (trapIndexDone t) := by
  obtain ⟨c, log, rfl⟩ := h
  simp only [trapIndexDone]
  split <;> exact ⟨c, _, rfl⟩

theorem seqStep_sameButDivider (h : SameButDivider s t) : SameButDivider (seqStep s) (seqStep t) := by
  have hregs : t.seqMode = s.seqMode ∧ t.seqPhase = s.seqPhase ∧ t.trapHalf = s.trapHalf := by
    obtain ⟨c, log, rfl⟩ := h
    exact ⟨rfl, rfl, rfl⟩
  obtain ⟨hmode, hphase, hhalf⟩ := hregs
  simp only [seqStep, hmode, hphase, trapAct, trapWaitDone, hhalf]
  split
  · exact h
  · obtain ⟨c, log, rfl⟩ := h
    exact ⟨c, _, rfl⟩
  · exact immWaitDone_sameButDivider h
  · split
    · obtain ⟨c, log, hadjust⟩ := trapAdjust_sameButDivider h
      rw [hadjust]
      exact ⟨c, _, rfl⟩
    · obtain ⟨c, log, rfl⟩ := h
      exact ⟨c, _, rfl⟩
  · split
    · obtain ⟨c, log, rfl⟩ := h
      exact ⟨c, log, rfl⟩
    · exact trapIndexDone_sameButDivider h

theorem seqRun_sameButDivider (fuel : Nat) (h : SameButDivider s t) :
    SameButDivider (seqRun fuel s) (seqRun fuel t) := by
  induction fuel generalizing s t with
  | zero => exact h
  | succ n ih =>
    have henabled := seqEnabled_sameButDivider h
    cases he : seqEnabled s with
    | true =>
      rw [seqRun_succ n he, seqRun_succ n (henabled.trans he)]
      exact ih (seqStep_sameButDivider h)
    | false => rwa [seqRun_of_not_enabled _ he, seqRun_of_not_enabled _ (henabled.trans he)]

theorem runToCompletion_sameButDivider (h : SameButDivider s t) :
    SameButDivider (runToCompletion s) (runToCompletion t) := by
  have hregs : t.seqMode = s.seqMode ∧ t.seqDelay = s.seqDelay := by
    obtain ⟨c, log, rfl⟩ := h
    exact ⟨rfl, rfl⟩
  unfold runToCompletion
  rw [hregs.1, hregs.2, seqEnabled_sameButDivider h]
  split
  · split
    · obtain ⟨c, log, rfl⟩ := h
      exact ⟨c, _, rfl⟩
    · exact h
  · exact seqRun_sameButDivider seqFuel h

theorem tuTick_sameButDivider (h : SameButDivider s t) : SameButDivider (tuTick s) (tuTick t) := by
  obtain ⟨c, log, rfl⟩ := h
  rw [tuTick_eq, tuTick_eq]
  apply runToCompletion_sameButDivider
  by_cases hcount : s.seqMode ≠ .none ∧ s.seqPhase = .wait ∧ 0#32 < s.waitCnt
  · rw [if_pos hcount, if_pos hcount]
    exact ⟨c, _, rfl⟩
  · rw [if_neg hcount, if_neg hcount]
    exact ⟨c, _, rfl⟩

/-! ### Either order -/

/-- In an idle block a tick is only observed, and a firing does not read the observation. -/
theorem fire_tuTick_idle (hm : s.seqMode = .none) : SameRegisters (fire (tuTick s)) (tuTick (fire s)) := by
  have hidle : (fire s).seqMode = .none := (fire_frame s).sequencer.1.trans hm
  rw [tuTick_idle hm, tuTick_idle hidle]
  by_cases htoggle : s.stepsEmitted < s.stepBudget ∧ s.divisorCounter = 0#32
  · obtain ⟨hleft, hzero⟩ := htoggle
    rw [fire_toggles hleft hzero, fire_toggles (s := observe .tuTick s) hleft hzero]
    exact SameButDivider.sameRegisters ⟨_, _, rfl⟩ ⟨_, _, rfl⟩ rfl
  · rw [fire_divides htoggle, fire_divides (s := observe .tuTick s) htoggle]
    exact SameButDivider.sameRegisters ⟨_, _, rfl⟩ ⟨_, _, rfl⟩ rfl

/-- With the budget used up a firing changes what the sequencer does not read. -/
theorem fire_tuTick_exhausted (hused : s.stepBudget ≤ s.stepsEmitted) :
    SameRegisters (fire (tuTick s)) (tuTick (fire s)) := by
  have hframe := tuTick_frame s
  have hused' : (tuTick s).stepBudget ≤ (tuTick s).stepsEmitted := by
    rw [hframe.stepBudget, hframe.stepsEmitted]
    exact hused
  refine SameButDivider.sameRegisters (u := tuTick s) (.of_eq (fire_exhausted hused'))
    (tuTick_sameButDivider (.of_eq (fire_exhausted hused))) ?_
  rw [(tuTick_frame (fire s)).divisorCounter, fire_divisorCounter, fire_divisorCounter, hframe.divisorCounter,
    hframe.rateDivisor]

/-- Settles O50: the block is idle, or the generator that is armed beside a command in progress is exhausted. -/
theorem tickAndFireCommute : Obligations.TickAndFireCommute := by
  unfold Obligations.TickAndFireCommute
  intro s h hrun
  by_cases hm : s.seqMode = .none
  · exact fire_tuTick_idle hm
  · obtain ⟨-, hbusy, -, -⟩ := h
    obtain ⟨-, -, -, -, hact⟩ := hbusy (busy_eq_true.mpr hm)
    exact fire_tuTick_exhausted (exhausted_of_not_active hrun hact)

end Sys2Proof.Machine
end

section
/-! SUPPORT. Which event writes which register (10_state.md section 1): what each command leaves, by its opcode, and then the
same of a tick, a firing and a whole step. -/

namespace Sys2Proof.Machine

variable {s t : State} {i : Instr}

/-! ### Commands -/

/-- What a command with this opcode leaves unchanged, for the eighteen registers: each may change only by the opcodes named. -/
structure CommandFrame (o : Opcode) (s t : State) : Prop where
  stepPin : o ∉ [.step, .stepTrapezoid] → t.stepPin = s.stepPin
  dirPin : o ∉ [.step, .stepTimer, .stepTrapezoid] → t.dirPin = s.dirPin
  oeN : o ∉ [.enable] → t.oeN = s.oeN
  initState : o ∉ [.init] → t.initState = s.initState
  timerRun : o ∉ [.stepTimer, .timerStop] → t.timerRun = s.timerRun
  rateProgram : o ∉ [.stepTimer] → SameRateProgram s t
  wait : o ∉ [.step, .stepTrapezoid] → t.seqMode = s.seqMode ∧ t.seqPhase = s.seqPhase ∧ t.waitCnt = s.waitCnt
  seqRemaining : o ∉ [.step] → t.seqRemaining = s.seqRemaining
  seqDelay : o ∉ [.step] → t.seqDelay = s.seqDelay
  profile : o ∉ [.stepTrapezoid] →
    t.trapIdx = s.trapIdx ∧ t.trapDelay = s.trapDelay ∧ t.trapPhase = s.trapPhase ∧ t.trapHalf = s.trapHalf

theorem CommandFrame.of_sameRegisters {o : Opcode} (h : SameRegisters s t) : CommandFrame o s t := by
  obtain ⟨⟨hstep, hdir, hoe⟩, ⟨hinit, hrun⟩, hrate, hmode, hphase, hrem, hdelay, hwait, hprofile⟩ := h
  exact ⟨fun _ => hstep, fun _ => hdir, fun _ => hoe, fun _ => hinit, fun _ => hrun, fun _ => hrate,
    fun _ => ⟨hmode, hphase, hwait⟩, fun _ => hrem, fun _ => hdelay, fun _ => hprofile⟩

/-- The delivery of a response writes no register. -/
theorem sameRegisters_respond (r : Response) (s : State) : SameRegisters s (respond r s) :=
  sameRegisters_observe (.response r) s

/-- A STEP writes the direction pin and what the sequencer writes in mode IMM. -/
theorem startStep_commandFrame (count delay : Word) (s : State) :
    CommandFrame .step s (startStep count delay s) := by
  by_cases hc : count = 0#32
  · rw [hc, startStep_zero]
    constructor <;> simp [SameRateProgram]
  by_cases hd : delay = 0#32
  · rw [hd, startStep_delay_zero hc]
    constructor <;> simp [SameRateProgram]
  · rw [startStep_eq hc hd]
    constructor <;> simp [SameRateProgram]

theorem exec_commandFrame (h : exec i s = .next t) : CommandFrame i.opcode s t := by
  rcases exec_next h with rfl | rfl | ⟨heff, -, -⟩
  · exact .of_sameRegisters (sameRegisters_respond _ s)
  · exact .of_sameRegisters (sameRegisters_respond _ s)
  · cases i with
    | init =>
      obtain ⟨-, rfl⟩ := heff
      constructor <;> simp [Instr.opcode, SameRateProgram, bringUpDone]
    | enable =>
      obtain ⟨-, -, rfl⟩ := heff
      constructor <;> simp [Instr.opcode, SameRateProgram]
    | step _ count delay =>
      obtain ⟨-, -, -, rfl⟩ := heff
      exact startStep_commandFrame count delay s
    | stepTimer =>
      obtain ⟨-, -, rfl⟩ := heff
      constructor <;> simp [Instr.opcode, SameRateProgram, arm]
    | stepTrapezoid =>
      obtain ⟨-, -, -, rfl⟩ := heff
      rw [startProfile_eq]
      constructor <;> simp [Instr.opcode, SameRateProgram]
    | timerStop =>
      obtain ⟨-, rfl⟩ := heff
      constructor <;> simp [Instr.opcode, SameRateProgram]

/-! ### Every event -/

/-- The 'written by' column of 10_state.md section 1, of a step from `s` to `t`: a register that has changed names the event. -/
def WrittenByItsEvent (s t : State) : Prop :=
  (t.stepPin ≠ s.stepPin → Fires s ∨ (Ticks s ∧ s.seqMode ≠ .none) ∨ Accepts [.step, .stepTrapezoid] s) ∧
  (t.dirPin ≠ s.dirPin → Accepts [.step, .stepTimer, .stepTrapezoid] s) ∧
  (t.oeN ≠ s.oeN → Accepts [.enable] s) ∧
  (t.initState ≠ s.initState → Accepts [.init] s) ∧
  (t.timerRun ≠ s.timerRun → Accepts [.stepTimer, .timerStop] s) ∧
  (t.stepBudget ≠ s.stepBudget ∨ t.rateDivisor ≠ s.rateDivisor → Accepts [.stepTimer] s) ∧
  (t.stepsEmitted ≠ s.stepsEmitted ∨ t.divisorCounter ≠ s.divisorCounter → Fires s ∨ Accepts [.stepTimer] s) ∧
  (t.seqMode ≠ s.seqMode ∨ t.seqPhase ≠ s.seqPhase ∨ t.waitCnt ≠ s.waitCnt →
    (Ticks s ∧ s.seqMode ≠ .none) ∨ Accepts [.step, .stepTrapezoid] s) ∧
  (t.seqRemaining ≠ s.seqRemaining → (Ticks s ∧ s.seqMode = .imm) ∨ Accepts [.step] s) ∧
  (t.seqDelay ≠ s.seqDelay → Accepts [.step] s) ∧
  (t.trapIdx ≠ s.trapIdx ∨ t.trapDelay ≠ s.trapDelay ∨ t.trapPhase ≠ s.trapPhase ∨ t.trapHalf ≠ s.trapHalf →
    (Ticks s ∧ s.seqMode = .trap) ∨ Accepts [.stepTrapezoid] s)

theorem writtenByItsEvent_of_sameRegisters (h : SameRegisters s t) : WrittenByItsEvent s t := by
  simp [WrittenByItsEvent, h]

/-- A tick of a command in progress writes only what the sequencer writes in the mode of that command. -/
theorem tuTick_writes {rest : List Turn} (hm : s.seqMode ≠ .none) (ha : s.agenda = .tuTick :: rest) :
    WrittenByItsEvent s (tuTick { s with agenda := rest }) := by
  have hframe := tuTick_frame { s with agenda := rest }
  have hmode := tuTick_modeFrame { s with agenda := rest }
  have hticks : Ticks s := ⟨rest, ha⟩
  refine ⟨fun _ => .inr (.inl ⟨hticks, hm⟩), absurd hframe.dirPin, absurd hframe.oeN, absurd hframe.initState,
    absurd hframe.timerRun, ?_, ?_, fun _ => .inl ⟨hticks, hm⟩, fun hne => .inl ⟨hticks, ?_⟩, absurd hmode.seqDelay,
    fun hne => .inl ⟨hticks, ?_⟩⟩
  · simp [hframe.stepBudget, hframe.rateDivisor]
  · simp [hframe.stepsEmitted, hframe.divisorCounter]
  · by_contra himm
    exact hne (hmode.seqRemaining himm)
  · by_contra htrap
    simp [hmode.profile htrap] at hne

/-- A firing writes the step pin and the two counters, and the turn of a stopped timer nothing. -/
theorem fireTurn_writes {rest : List Turn} (ha : s.agenda = .fire :: rest) :
    WrittenByItsEvent s (fireTurn { s with agenda := rest }) := by
  by_cases hrun : s.timerRun = true
  · rw [fireTurn_armed (s := { s with agenda := rest }) hrun]
    have hframe := fire_frame { s with agenda := rest }
    obtain ⟨hmode, hphase, hrem, hdelay, hwait, hprofile⟩ := hframe.sequencer
    have hfires : Fires s := ⟨rest, ha, hrun⟩
    refine ⟨fun _ => .inl hfires, absurd hframe.dirPin, absurd hframe.oeN, absurd hframe.initState,
      absurd hframe.timerRun, ?_, fun _ => .inl hfires, ?_, absurd hrem, absurd hdelay, ?_⟩
    · simp [hframe.stepBudget, hframe.rateDivisor]
    · simp [hmode, hphase, hwait]
    · simp [hprofile]
  · rw [fireTurn_stopped (s := { s with agenda := rest }) (Bool.eq_false_iff.mpr hrun)]
    exact writtenByItsEvent_of_sameRegisters (sameRegisters_agenda_host s rest s.host)

/-- An accepted command writes only the registers of its opcode. -/
theorem command_writes {rest : List Turn} {q : List Request} (hacc : ∀ os, i.opcode ∈ os → Accepts os s)
    (h : exec i { s with agenda := rest, host := q } = .next t) : WrittenByItsEvent s t := by
  have hframe := exec_commandFrame h
  have hby {os : List Opcode} {same : Prop} (hkeeps : i.opcode ∉ os → same) (hne : ¬same) : Accepts os s :=
    hacc os (by_contra fun ho => hne (hkeeps ho))
  refine ⟨fun hne => .inr (.inr (hby hframe.stepPin hne)), hby hframe.dirPin, hby hframe.oeN, hby hframe.initState,
    hby hframe.timerRun, fun hne => hby hframe.rateProgram ?_, fun hne => .inr (hby hframe.rateProgram ?_),
    fun hne => .inr (hby hframe.wait ?_), fun hne => .inr (hby hframe.seqRemaining hne), hby hframe.seqDelay,
    fun hne => .inr (hby hframe.profile ?_)⟩ <;> tauto

theorem step_writes (h : step s = .next t) (hreset : ∀ rest, s.agenda ≠ .reset :: rest) : WrittenByItsEvent s t := by
  rcases step_cases h with ⟨-, rfl⟩ | ⟨rest, ha, -⟩ | ⟨rest, ha, rfl⟩ | ⟨rest, ha, rfl⟩ | ⟨rest, -, -, rfl⟩ |
    ⟨rest, w, q, i, ha, hm, hh, hw, hexec⟩ | ⟨rest, n, q, -, -, -, hread⟩
  · exact writtenByItsEvent_of_sameRegisters (sameRegisters_agenda_host t t.agenda t.host)
  · exact absurd ha (hreset rest)
  · by_cases hm : s.seqMode = .none
    · rw [tuTick_idle (s := { s with agenda := rest }) hm]
      exact writtenByItsEvent_of_sameRegisters (sameRegisters_observe .tuTick { s with agenda := rest })
    · exact tuTick_writes hm ha
  · exact fireTurn_writes ha
  · exact writtenByItsEvent_of_sameRegisters (sameRegisters_agenda_host s rest s.host)
  · exact command_writes (fun os ho => ⟨rest, w, q, i, ha, hm, hh, hw, ho⟩) hexec
  · exact writtenByItsEvent_of_sameRegisters (regRead_frame hread).1

/-- Settles O34: event by event, each with the registers it leaves. -/
theorem writersOfRegisters : Obligations.WritersOfRegisters := by
  unfold Obligations.WritersOfRegisters
  exact fun s t h hreset => step_writes h hreset

end Sys2Proof.Machine
end

section
/-! SUPPORT. The Periodic Rate Generator in closed form (42_periodic_rate_generator.md sections 3 and 4): an induction over
the firings. -/

namespace Sys2Proof.Machine

variable {s : State}

/-! ### The divisor period -/

theorem period_pos (divisor : Word) : 0 < period divisor := by
  unfold period
  split <;> bv_omega

/-- The remainder of the next number. -/
theorem succ_mod_eq (m : Nat) {R : Nat} (hR : 0 < R) : (m + 1) % R = if m % R + 1 = R then 0 else m % R + 1 := by
  have hlt := Nat.mod_lt m hR
  rw [← Nat.mod_add_mod]
  split
  · next hfull => rw [hfull, Nat.mod_self]
  · exact Nat.mod_eq_of_lt (by omega)

/-- `ceil(m / R)` grows by one exactly where `m` begins a period. -/
theorem ceilDiv_succ (m : Nat) {R : Nat} (hR : 0 < R) :
    (m + 1 + R - 1) / R = (m + R - 1) / R + if m % R = 0 then 1 else 0 := by
  have hpred : m + R - 1 + 1 = m + R := by omega
  rw [show m + 1 + R - 1 = m + R - 1 + 1 by omega, Nat.succ_div, hpred]
  simp only [Nat.dvd_iff_mod_eq_zero, Nat.add_mod_right]

/-- The counter reaches the divisor where its period is full; at the divisor 0 the 32-bit counter turns (R152). -/
theorem nextCounter_toNat {c divisor : Word} (hc : c.toNat < period divisor) :
    (if c + 1#32 = divisor then 0#32 else c + 1#32).toNat =
      if c.toNat + 1 = period divisor then 0 else c.toNat + 1 := by
  unfold period at hc ⊢
  by_cases hzero : divisor = 0#32
  · simp only [hzero, if_true] at hc ⊢
    split_ifs <;> bv_omega
  · simp only [hzero, if_false] at hc ⊢
    split_ifs <;> bv_omega

/-! ### The firings after an arm -/

/-- The generator after `m` firings, of an arm with this budget and divisor that found the step pin at `l`. -/
structure AfterFirings (budget divisor : Word) (l : Level) (m : Nat) (s : State) : Prop where
  stepBudget : s.stepBudget = budgetOf budget
  rateDivisor : s.rateDivisor = divisor
  stepsEmitted : s.stepsEmitted.toNat = min (magOf budget) ((m + period divisor - 1) / period divisor)
  divisorCounter : s.divisorCounter.toNat = m % period divisor
  stepPin : s.stepPin = levelAfter s.stepsEmitted.toNat l
  timerRun : s.timerRun = true

namespace AfterFirings

variable {budget divisor : Word} {l : Level} {m : Nat}

/-- The arm itself, before any firing. -/
theorem arm (budget divisor : Word) (s : State) :
    AfterFirings budget divisor s.stepPin 0 (respond .ok (Machine.arm budget divisor s)) := by
  have hnone : (0 + period divisor - 1) / period divisor = 0 :=
    Nat.div_eq_of_lt (by have := period_pos divisor; omega)
  refine ⟨rfl, rfl, ?_, (Nat.zero_mod _).symm, rfl, rfl⟩
  rw [hnone, Nat.min_zero]
  rfl

/-- Whether the next firing toggles: the budget is not used up and a period begins. -/
theorem toggles_iff (h : AfterFirings budget divisor l m s) : s.stepsEmitted < s.stepBudget ∧ s.divisorCounter = 0#32 ↔
    (m + period divisor - 1) / period divisor < magOf budget ∧ m % period divisor = 0 := by
  rw [BitVec.lt_def, h.stepBudget, budgetOf_toNat, h.stepsEmitted, ← BitVec.toNat_inj, h.divisorCounter]
  simp

/-- The counter after one more firing. -/
theorem divisorCounter_fire (h : AfterFirings budget divisor l m s) :
    (fire s).divisorCounter.toNat = (m + 1) % period divisor := by
  have hpos := period_pos divisor
  have hlt : s.divisorCounter.toNat < period divisor := h.divisorCounter ▸ Nat.mod_lt m hpos
  rw [fire_divisorCounter, h.rateDivisor, nextCounter_toNat hlt, h.divisorCounter, succ_mod_eq m hpos]

/-- The toggles made after one more firing. -/
theorem stepsEmitted_fire (h : AfterFirings budget divisor l m s) :
    (fire s).stepsEmitted.toNat = min (magOf budget) ((m + 1 + period divisor - 1) / period divisor) := by
  have hemitted := h.stepsEmitted
  rw [ceilDiv_succ m (period_pos divisor)]
  by_cases htoggle : s.stepsEmitted < s.stepBudget ∧ s.divisorCounter = 0#32
  · obtain ⟨hleft, hbegins⟩ := h.toggles_iff.mp htoggle
    have hmag := magOf_le budget
    rw [fire_toggles htoggle.1 htoggle.2, if_pos hbegins]
    change (s.stepsEmitted + 1#32).toNat = _
    bv_omega
  · rw [fire_divides htoggle]
    change s.stepsEmitted.toNat = _
    by_cases hbegins : m % period divisor = 0
    · have hused : magOf budget ≤ (m + period divisor - 1) / period divisor :=
        Nat.not_lt.mp fun hleft => htoggle (h.toggles_iff.mpr ⟨hleft, hbegins⟩)
      rw [hemitted, Nat.min_eq_left hused, Nat.min_eq_left (Nat.le_add_right_of_le hused)]
    · rw [hemitted, if_neg hbegins, Nat.add_zero]

/-- The step pin follows the toggles made. -/
theorem stepPin_fire (h : AfterFirings budget divisor l m s) :
    (fire s).stepPin = levelAfter (fire s).stepsEmitted.toNat l := by
  by_cases htoggle : s.stepsEmitted < s.stepBudget ∧ s.divisorCounter = 0#32
  · obtain ⟨hleft, hzero⟩ := htoggle
    have hsucc : (s.stepsEmitted + 1#32).toNat = s.stepsEmitted.toNat + 1 := by bv_omega
    rw [fire_toggles hleft hzero]
    change ~~~s.stepPin = levelAfter (s.stepsEmitted + 1#32).toNat l
    rw [hsucc, levelAfter_succ, h.stepPin]
  · rw [fire_divides htoggle]
    exact h.stepPin

/-- One more firing. -/
theorem next (h : AfterFirings budget divisor l m s) : AfterFirings budget divisor l (m + 1) (fire s) where
  stepBudget := (fire_frame s).stepBudget.trans h.stepBudget
  rateDivisor := (fire_frame s).rateDivisor.trans h.rateDivisor
  stepsEmitted := h.stepsEmitted_fire
  divisorCounter := h.divisorCounter_fire
  stepPin := h.stepPin_fire
  timerRun := (fire_frame s).timerRun.trans h.timerRun

theorem firings (h : AfterFirings budget divisor l 0 s) (m : Nat) :
    AfterFirings budget divisor l m (Machine.firings m s) := by
  induction m with
  | zero => exact h
  | succ m ih => exact ih.next

end AfterFirings

/-- Settles O37: the closed form holds at the arm and at each firing after it. -/
theorem generatorClosedForm : Obligations.GeneratorClosedForm := by
  unfold Obligations.GeneratorClosedForm
  intro budget divisor s t hi he h m
  rw [exec_stepTimer budget divisor hi he] at h
  obtain rfl := Host.Outcome.next.inj h
  have hafter := (AfterFirings.arm budget divisor s).firings m
  exact ⟨hafter.stepsEmitted, hafter.divisorCounter, hafter.stepPin, hafter.timerRun⟩

end Sys2Proof.Machine
end

section
/-! SUPPORT. The schedule of STEP (41_immediate_stepper.md section 3): its waits one after another, each as long as the delay,
and its end. -/

namespace Sys2Proof.Machine

variable {s t u : State}

/-! ### Any number of ticks -/

/-- Any number of ticks leaves what one leaves. -/
theorem ticks_frame (k : Nat) (s : State) : SeqFrame s (ticks k s) := by
  induction k with
  | zero => exact .rfl s
  | succ k ih => exact ih.trans (tuTick_frame _)

theorem responsesDue_ticks (k : Nat) (s : State) : responsesDue (ticks k s) = responsesDue s := by
  induction k with
  | zero => rfl
  | succ k ih => exact (responsesDue_tuTick _).trans ih

/-- While the command is in progress before and after, no response has come. -/
theorem responsesIn_ticks_busy {k : Nat} (hm : s.seqMode ≠ .none) (hm' : (ticks k s).seqMode ≠ .none) :
    responsesIn (ticks k s).log = responsesIn s.log := by
  have hdue := responsesDue_ticks k s
  rw [responsesDue, responsesDue, responsesOwed_busy hm, responsesOwed_busy hm'] at hdue
  exact Nat.add_right_cancel hdue

/-! ### The waits of a STEP -/

/-- Toggle `j` of a STEP that was accepted in `s` is made, and the wait after it begins. -/
structure BeginsWait (count delay : Word) (s : State) (j : Nat) (u : State) : Prop where
  seqMode : u.seqMode = .imm
  seqPhase : u.seqPhase = .wait
  seqDelay : u.seqDelay = delay
  waitCnt : u.waitCnt = delay
  seqRemaining : u.seqRemaining.toNat + j = 2 * magOf count
  stepPin : u.stepPin = levelAfter j s.stepPin
  toggles : togglesIn u.log = togglesIn s.log + j

namespace BeginsWait

variable {count delay : Word} {j : Nat}

/-- The start of a STEP makes its first toggle. -/
theorem startStep (hc : count ≠ 0#32) (hd : delay ≠ 0#32) (s : State) :
    BeginsWait count delay s 1 (startStep count delay s) := by
  have hmag : magOf count ≠ 0 := magOf_ne_zero hc
  have hle : magOf count ≤ 2 ^ 31 := magOf_le count
  have hrem : (BitVec.ofNat 33 (2 * magOf count - 1)).toNat + 1 = 2 * magOf count := by
    rw [BitVec.toNat_ofNat]
    omega
  rw [startStep_eq hc hd]
  exact ⟨rfl, rfl, rfl, rfl, hrem, rfl, Nat.add_comm 1 _⟩

/-- During the wait the ticks are only counted. -/
theorem ticks_within (h : BeginsWait count delay s j u) {r : Nat} (hr : r < delay.toNat) :
    (ticks r u).seqMode = .imm ∧ (ticks r u).stepPin = levelAfter j s.stepPin ∧
      togglesIn (ticks r u).log = togglesIn s.log + j := by
  obtain ⟨-, htoggles, -, -⟩ := replicate_tuTick_counts r u.log
  rw [ticks_waiting (by simp [h.seqMode]) h.seqPhase (by rwa [h.waitCnt])]
  exact ⟨h.seqMode, h.stepPin, htoggles.trans h.toggles⟩

/-- As many ticks as the delay end the wait. -/
theorem ticks_delay (h : BeginsWait count delay s j u) (hd : delay ≠ 0#32) : ∃ log,
    togglesIn log = togglesIn u.log ∧ ticks delay.toNat u =
      if u.seqRemaining = 0#33 then respond .ok { u with waitCnt := 0#32, seqMode := .none, log := log }
      else immAct { u with waitCnt := 0#32, seqPhase := .act, log := log } := by
  obtain ⟨n, hn⟩ : ∃ n, delay.toNat = n + 1 := Nat.exists_eq_add_one_of_ne_zero (by bv_omega)
  have htoggles : togglesIn (.tuTick :: (List.replicate n .tuTick ++ u.log)) = togglesIn u.log :=
    (replicate_tuTick_counts n u.log).2.1
  refine ⟨_, htoggles, ?_⟩
  rw [hn, ticks_wait_ends (by simp [h.seqMode]) h.seqPhase (by rw [h.waitCnt, hn])]
  exact runToCompletion_immWaitDone (s := { u with waitCnt := 0#32, log := _ }) h.seqMode h.seqPhase rfl
    (by rwa [h.seqDelay])

/-- The wait ends in the next toggle while one is left. -/
theorem next (h : BeginsWait count delay s j u) (hd : delay ≠ 0#32) (hj : j < 2 * magOf count) :
    BeginsWait count delay s (j + 1) (ticks delay.toNat u) := by
  obtain ⟨log, htoggles, hticks⟩ := h.ticks_delay hd
  have hrem := h.seqRemaining
  have hleft : u.seqRemaining ≠ 0#33 := by bv_omega
  have hfewer : (u.seqRemaining - 1#33).toNat + (j + 1) = 2 * magOf count := by bv_omega
  have hmore : togglesIn (logToggles 1 log) = togglesIn s.log + (j + 1) := by
    rw [togglesIn_logToggles, htoggles, h.toggles]
    omega
  have hpin : ~~~u.stepPin = levelAfter (j + 1) s.stepPin := by rw [levelAfter_succ, h.stepPin]
  rw [hticks, if_neg hleft]
  exact ⟨h.seqMode, rfl, h.seqDelay, h.seqDelay, hfewer, hpin, hmore⟩

/-- The wait after the last toggle ends in the response. -/
theorem ends (h : BeginsWait count delay s (2 * magOf count) u) (hd : delay ≠ 0#32) :
    (ticks delay.toNat u).seqMode = .none ∧ (ticks delay.toNat u).stepPin = s.stepPin ∧
      togglesIn (ticks delay.toNat u).log = togglesIn s.log + 2 * magOf count ∧
      (ticks delay.toNat u).log.head? = some (.response .ok) := by
  obtain ⟨log, htoggles, hticks⟩ := h.ticks_delay hd
  have hrem := h.seqRemaining
  have hnone : u.seqRemaining = 0#33 := by bv_omega
  rw [hticks, if_pos hnone]
  exact ⟨rfl, h.stepPin.trans (levelAfter_even _ _), htoggles.trans h.toggles, rfl⟩

/-- Toggle `j + 1` falls in tick `j * delay`. -/
theorem ticks_mul (h : BeginsWait count delay s 1 u) (hd : delay ≠ 0#32) (hj : j < 2 * magOf count) :
    BeginsWait count delay s (j + 1) (ticks (j * delay.toNat) u) := by
  induction j with
  | zero =>
    rw [Nat.zero_mul]
    exact h
  | succ j ih =>
    rw [Nat.succ_mul, ticks_add]
    exact (ih (by omega)).next hd hj

/-- The state after `k` ticks, before the end. -/
theorem ticks_before_end (h : BeginsWait count delay s 1 u) (hd : delay ≠ 0#32) {k : Nat}
    (hk : k < 2 * magOf count * delay.toNat) :
    (ticks k u).seqMode = .imm ∧ (ticks k u).stepPin = levelAfter (k / delay.toNat + 1) s.stepPin ∧
      togglesIn (ticks k u).log = togglesIn s.log + (k / delay.toNat + 1) := by
  have hpos : 0 < delay.toNat := by bv_omega
  have hwait := h.ticks_mul hd (Nat.div_lt_of_lt_mul (by rwa [Nat.mul_comm] at hk))
  have hsplit : ticks k u = ticks (k % delay.toNat) (ticks (k / delay.toNat * delay.toNat) u) := by
    rw [← ticks_add, Nat.div_add_mod']
  rw [hsplit]
  exact hwait.ticks_within (Nat.mod_lt k hpos)

/-- The state after the last tick. -/
theorem ticks_end (h : BeginsWait count delay s 1 u) (hc : count ≠ 0#32) (hd : delay ≠ 0#32) :
    (ticks (2 * magOf count * delay.toNat) u).seqMode = .none ∧
      (ticks (2 * magOf count * delay.toNat) u).stepPin = s.stepPin ∧
      togglesIn (ticks (2 * magOf count * delay.toNat) u).log = togglesIn s.log + 2 * magOf count ∧
      (ticks (2 * magOf count * delay.toNat) u).log.head? = some (.response .ok) := by
  obtain ⟨m, hm⟩ : ∃ m, 2 * magOf count = m + 1 :=
    Nat.exists_eq_add_one_of_ne_zero (by have := magOf_ne_zero hc; omega)
  have hlast := h.ticks_mul hd (j := m) (by omega)
  rw [← hm] at hlast
  have hsplit : ticks (2 * magOf count * delay.toNat) u = ticks delay.toNat (ticks (m * delay.toNat) u) := by
    rw [← ticks_add, hm, Nat.succ_mul]
  rw [hsplit]
  exact hlast.ends hd

end BeginsWait

/-- Settles O19: wait after wait from the first toggle, and the wait after the last. -/
theorem stepSchedule : Obligations.StepSchedule := by
  unfold Obligations.StepSchedule
  intro count delay s t hi hact he hc hd h
  rw [exec_step count delay hi he hact] at h
  obtain rfl := Host.Outcome.next.inj h
  have hfirst := BeginsWait.startStep hc hd s
  have hresponses : responsesIn (startStep count delay s).log = responsesIn s.log := by
    rw [startStep_eq hc hd]
    rfl
  refine ⟨fun k hk => ?_, ?_⟩
  · obtain ⟨hmode, hpin, htoggles⟩ := hfirst.ticks_before_end hd hk
    have hnone := responsesIn_ticks_busy (s := startStep count delay s) (k := k) (by simp [hfirst.seqMode]) (by simp [hmode])
    exact ⟨hmode, hpin, htoggles, hnone.trans hresponses, (ticks_frame k _).dirPin⟩
  · obtain ⟨hmode, hpin, htoggles, hresponse⟩ := hfirst.ticks_end hc hd
    exact ⟨hmode, hpin, (ticks_frame _ _).dirPin, htoggles, hresponse⟩

end Sys2Proof.Machine
end

section
/-! SUPPORT. The schedule of the profile (43_trapezoidal_profiler.md section 4): its total in ticks, the pulse of each index, and
its end. -/

namespace Sys2Proof.Machine

variable {s t u : State}

/-! ### The total of the profile, R178 -/

/-- An index takes its delay twice, once for each half. -/
theorem profileStart_succ (i : Nat) : profileStart (i + 1) = profileStart i + profileDelay i + profileDelay i := by
  rw [profileStart]
  omega

/-- Indices with one delay take twice that delay each. -/
theorem profileStart_add {i n d : Nat} (h : ∀ k < n, profileDelay (i + k) = d) :
    profileStart (i + n) = profileStart i + 2 * d * n := by
  induction n with
  | zero => rfl
  | succ n ih =>
    rw [← Nat.add_assoc, profileStart, h n (Nat.lt_succ_self n), ih fun k hk => h k (Nat.lt_succ_of_lt hk), Nat.mul_succ]
    omega

/-- The acceleration zone, twenty indices with each delay from 10 down. -/
theorem profileStart_accel {j : Nat} (hj : j ≤ 10) : profileStart (20 * j) + 20 * j * j = 420 * j := by
  induction j with
  | zero => rfl
  | succ j ih =>
    have hdelay : ∀ k < 20, profileDelay (20 * j + k) = 10 - j := fun k hk => by
      rw [profileDelay_eq]
      split_ifs <;> omega
    have hstart := profileStart_add hdelay
    have hprev := ih (by omega)
    rw [Nat.mul_succ, hstart]
    have : (20 * j + 20) * (j + 1) = 20 * j * j + 40 * j + 20 := by ring
    omega

/-- The cruise zone, with delay 1. -/
theorem profileStart_cruise : profileStart 3000 = 7800 := by
  have haccel : profileStart 200 + 2000 = 2200 + 2000 := profileStart_accel (Nat.le_refl 10)
  have hdelay : ∀ k < 2800, profileDelay (200 + k) = 1 := fun k hk => by
    rw [profileDelay_eq]
    split_ifs <;> omega
  calc profileStart 3000
    _ = profileStart 200 + 5600 := profileStart_add hdelay
    _ = 7800 := congrArg (· + 5600) (Nat.add_right_cancel haccel)

/-- The deceleration zone, twenty indices with each delay from 2 up. -/
theorem profileStart_decel {j : Nat} (hj : j ≤ 10) : profileStart (3000 + 20 * j) = 7800 + 60 * j + 20 * j * j := by
  induction j with
  | zero => exact profileStart_cruise
  | succ j ih =>
    have hdelay : ∀ k < 20, profileDelay (3000 + 20 * j + k) = 2 + j := fun k hk => by
      rw [profileDelay_eq]
      split_ifs <;> omega
    have hstart := profileStart_add hdelay
    have hprev := ih (by omega)
    rw [Nat.mul_succ, ← Nat.add_assoc, hstart, hprev]
    ring

theorem profileStart_total : profileStart 3200 = 10400 := profileStart_decel (Nat.le_refl 10)

/-- Every tick before the start of index `n` falls in one of the indices before it. -/
theorem exists_index {k n : Nat} (h : k < profileStart n) : ∃ i r, i < n ∧ r < 2 * profileDelay i ∧ k = profileStart i + r := by
  induction n with
  | zero => exact absurd h (Nat.not_lt_zero k)
  | succ n ih =>
    by_cases hk : k < profileStart n
    · obtain ⟨i, r, hi, hr, rfl⟩ := ih hk
      exact ⟨i, r, Nat.lt_succ_of_lt hi, hr, rfl⟩
    · rw [profileStart] at h
      exact ⟨n, k - profileStart n, Nat.lt_succ_self n, by omega, by omega⟩

/-! ### The pulses of the halves -/

namespace BeginsHalf

variable {i : Nat} {half : Half}

theorem index_lt (h : BeginsHalf i half s) : i < 3200 := by
  obtain ⟨hidx, -⟩ := h.trapInv h.seqMode
  rwa [h.trapIdx] at hidx

/-- During a half the ticks are only counted. -/
theorem ticks_within (h : BeginsHalf i half s) {r : Nat} (hr : r < profileDelay i) :
    (ticks r s).seqMode = .trap ∧ (ticks r s).trapIdx.toNat = i ∧ (ticks r s).trapHalf = half ∧
      (ticks r s).stepPin = halfLevel half ∧ (ticks r s).waitCnt.toNat = profileDelay i - r ∧
      highSetsIn (ticks r s).log = highSetsIn s.log := by
  obtain ⟨-, -, -, -, hpin⟩ := h.trapInv h.seqMode
  obtain ⟨-, -, hhighs, -⟩ := replicate_tuTick_counts r s.log
  have hdelay : s.waitCnt.toNat = profileDelay i := by rw [h.waitCnt, h.trapDelay]
  have hleft : (s.waitCnt - BitVec.ofNat 32 r).toNat = profileDelay i - r := by bv_omega
  rw [h.trapHalf] at hpin
  rw [ticks_waiting (by simp [h.seqMode]) h.seqPhase (by rwa [hdelay])]
  exact ⟨h.seqMode, h.trapIdx, h.trapHalf, hpin, hleft, hhighs⟩

/-- The `d(i)` ticks of a half end its wait and make no pulse before that. -/
theorem ticks_delay (h : BeginsHalf i half s) : ∃ log, highSetsIn log = highSetsIn s.log ∧
    ticks (profileDelay i) s = runToCompletion { s with waitCnt := 0#32, log := log } := by
  obtain ⟨n, hn⟩ := Nat.exists_eq_add_of_le' (profileDelay_pos i h.index_lt).1
  have hhighs : highSetsIn (.tuTick :: (List.replicate n .tuTick ++ s.log)) = highSetsIn s.log :=
    (replicate_tuTick_counts n s.log).2.2.1
  rw [hn]
  exact ⟨_, hhighs, ticks_wait_ends (by simp [h.seqMode]) h.seqPhase (by rw [h.waitCnt, h.trapDelay, hn])⟩

/-- The end of a low half makes the pulse of its index. -/
theorem highSetsIn_high (h : BeginsHalf i .low s) :
    highSetsIn (ticks (profileDelay i) s).log = highSetsIn s.log + 1 := by
  obtain ⟨log, hhighs, hticks⟩ := h.ticks_delay
  have hpos := (profileDelay_pos i h.index_lt).1
  have hdelay := h.trapDelay
  have hne : s.trapDelay ≠ 0#32 := by bv_omega
  rw [hticks, runToCompletion_trapLowDone (s := { s with waitCnt := 0#32, log := log }) h.seqMode h.seqPhase rfl
    h.trapHalf hne, ← hhighs]
  exact Nat.add_comm 1 _

/-- The end of a high half before the last index makes no pulse. -/
theorem highSetsIn_next (h : BeginsHalf i .high s) (hi : i + 1 < 3200) :
    highSetsIn (ticks (profileDelay i) s).log = highSetsIn s.log := by
  obtain ⟨log, hhighs, hticks⟩ := h.ticks_delay
  obtain ⟨-, hdelay, hphase, -, -⟩ := h.trapInv h.seqMode
  obtain rfl := h.trapIdx
  obtain ⟨d, p, hadjust, -, hd, -⟩ :=
    trapAdjust_indexDone (s := { s with waitCnt := 0#32, log := log }) hi hdelay hphase
  have hpos := (profileDelay_pos _ hi).1
  have hne : d ≠ 0#32 := by bv_omega
  rw [hticks, runToCompletion_trapNext (s := { s with waitCnt := 0#32, log := log }) h.seqMode h.seqPhase rfl
    h.trapHalf hi.ne (by rwa [hadjust]), hadjust, ← hhighs]
  exact Nat.zero_add _

/-- The end of the last high half ends the profile with its response, and makes no pulse. -/
theorem ends (h : BeginsHalf 3199 .high s) :
    (ticks (profileDelay 3199) s).seqMode = .none ∧ (ticks (profileDelay 3199) s).stepPin = 1#1 ∧
      highSetsIn (ticks (profileDelay 3199) s).log = highSetsIn s.log ∧
      (ticks (profileDelay 3199) s).log.head? = some (.response .ok) := by
  obtain ⟨log, hhighs, hticks⟩ := h.ticks_delay
  obtain ⟨-, -, -, -, hpin⟩ := h.trapInv h.seqMode
  have hlast : s.trapIdx.toNat + 1 = Config.trapTotal := congrArg (· + 1) h.trapIdx
  have hidx : s.trapIdx = 3199#12 := BitVec.eq_of_toNat_eq h.trapIdx
  rw [h.trapHalf] at hpin
  rw [hticks, runToCompletion_trapEnd (s := { s with waitCnt := 0#32, log := log }) h.seqMode h.seqPhase rfl
    h.trapHalf hlast, trapIndexDone_last (s := { s with waitCnt := 0#32, log := log }) hidx]
  exact ⟨rfl, hpin, hhighs, rfl⟩

/-! ### The pulses of the profile -/

/-- At tick `S(i)` the profile has made `i` pulses. -/
theorem highSetsIn_profileStart (h : BeginsHalf 0 .low s) (hi : i < 3200) :
    highSetsIn (ticks (profileStart i) s).log = highSetsIn s.log + i := by
  induction i with
  | zero => rfl
  | succ i ih =>
    have hlow := h.ticks_profileStart (i := i) (by omega)
    rw [profileStart_succ, ticks_add, ticks_add, hlow.high.highSetsIn_next hi, hlow.highSetsIn_high, ih (by omega)]
    rfl

/-- Until tick 10400 the profile is in progress. -/
theorem ticks_before_end (h : BeginsHalf 0 .low s) {k : Nat} (hk : k < 10400) : (ticks k s).seqMode = .trap := by
  rw [← profileStart_total] at hk
  obtain ⟨i, r, hi, hr, rfl⟩ := exists_index hk
  have hlow := h.ticks_profileStart hi
  rw [ticks_add]
  by_cases hhalf : r < profileDelay i
  · exact (hlow.ticks_within hhalf).1
  · obtain ⟨r', rfl⟩ := Nat.exists_eq_add_of_le (Nat.not_lt.mp hhalf)
    rw [ticks_add]
    exact (hlow.high.ticks_within (by omega)).1

/-- Tick 10400 ends the profile, after 3200 pulses and with the pin high. -/
theorem ticks_end (h : BeginsHalf 0 .low s) :
    (ticks 10400 s).seqMode = .none ∧ (ticks 10400 s).stepPin = 1#1 ∧
      highSetsIn (ticks 10400 s).log = highSetsIn s.log + 3200 ∧
      (ticks 10400 s).log.head? = some (.response .ok) := by
  have hlow := h.ticks_profileStart (i := 3199) (by decide)
  have htotal : 10400 = profileStart 3199 + profileDelay 3199 + profileDelay 3199 :=
    profileStart_total.symm.trans (profileStart_succ 3199)
  obtain ⟨hmode, hpin, hhighs, hresponse⟩ := hlow.high.ends
  rw [hlow.highSetsIn_high, h.highSetsIn_profileStart (by decide)] at hhighs
  rw [htotal, ticks_add, ticks_add]
  exact ⟨hmode, hpin, hhighs, hresponse⟩

end BeginsHalf

/-- Settles O22: half after half from the start, the pulse at the start of each high half, and the end of the last. -/
theorem trapezoidSchedule : Obligations.TrapezoidSchedule := by
  unfold Obligations.TrapezoidSchedule
  refine ⟨profileStart_total, fun argc arg0 arg1 s t ha hi hact he h => ?_⟩
  rw [exec_stepTrapezoid arg0 arg1 ha hi hact he] at h
  have hstart : BeginsHalf 0 .low t := Host.Outcome.next.inj h ▸ BeginsHalf.startProfile s
  rw [startProfile_eq] at h
  have hdir : t.dirPin = Config.dirCw := by cases h; rfl
  have hhighs : highSetsIn t.log = highSetsIn s.log := by cases h; exact Nat.zero_add _
  have hresponses : responsesIn t.log = responsesIn s.log := by cases h; rfl
  refine ⟨fun i r hidx hr => ?_, fun k hk => ?_, ?_⟩
  · have hlow := hstart.ticks_profileStart hidx
    have hpulses := hstart.highSetsIn_profileStart hidx
    rw [hhighs] at hpulses
    constructor
    · obtain ⟨hmode, hindex, hhalf, hpin, hwait, hsets⟩ := hlow.ticks_within hr
      rw [ticks_add]
      exact ⟨hmode, hindex, hhalf, hpin, hwait, hsets.trans hpulses⟩
    · obtain ⟨hmode, hindex, hhalf, hpin, hwait, hsets⟩ := hlow.high.ticks_within hr
      rw [ticks_add, ticks_add]
      refine ⟨hmode, hindex, hhalf, hpin, hwait, ?_⟩
      rw [hsets, hlow.highSetsIn_high, hpulses]
  · have hmode := hstart.ticks_before_end hk
    have hnone := responsesIn_ticks_busy (s := t) (k := k) (by simp [hstart.seqMode]) (by simp [hmode])
    exact ⟨hmode, hnone.trans hresponses⟩
  · obtain ⟨hmode, hpin, hsets, hresponse⟩ := hstart.ticks_end
    exact ⟨hmode, hpin, (ticks_frame 10400 t).dirPin.trans hdir, hsets.trans (congrArg (· + 3200) hhighs), hresponse⟩

end Sys2Proof.Machine
end

section
/-! SUPPORT. The ticks that a blocking command in progress still takes (41_immediate_stepper.md section 3,
43_trapezoidal_profiler.md section 4, 70_reset_and_hazards.md section 4). -/

namespace Sys2Proof.Machine

variable {s t : State}

/-! ### `ticksLeft` in each mode -/

theorem ticksLeft_idle (hm : s.seqMode = .none) : ticksLeft s = 0 := by simp [ticksLeft, hm]

theorem ticksLeft_imm (hm : s.seqMode = .imm) :
    ticksLeft s = s.waitCnt.toNat + s.seqRemaining.toNat * s.seqDelay.toNat := by simp [ticksLeft, hm]

theorem ticksLeft_trap_low (hm : s.seqMode = .trap) (hh : s.trapHalf = .low) :
    ticksLeft s = s.waitCnt.toNat + s.trapDelay.toNat + (profileStart 3200 - profileStart (s.trapIdx.toNat + 1)) := by
  simp [ticksLeft, hm, hh, Config.trapTotal]

theorem ticksLeft_trap_high (hm : s.seqMode = .trap) (hh : s.trapHalf = .high) :
    ticksLeft s = s.waitCnt.toNat + (profileStart 3200 - profileStart (s.trapIdx.toNat + 1)) := by
  simp [ticksLeft, hm, hh, Config.trapTotal]

theorem ticksLeft_fire (s : State) : ticksLeft (fire s) = ticksLeft s := by
  obtain ⟨hmode, -, hrem, hdelay, hwait, hidx, htdelay, -, hhalf⟩ := (fire_frame s).sequencer
  unfold ticksLeft
  rw [hmode, hrem, hdelay, hwait, hidx, htdelay, hhalf]

/-- The wait in progress is a part of the ticks left. -/
theorem waitCnt_le_ticksLeft (hm : s.seqMode ≠ .none) : s.waitCnt.toNat ≤ ticksLeft s := by
  unfold ticksLeft
  cases hmode : s.seqMode with
  | none => exact absurd hmode hm
  | imm => exact Nat.le_add_right _ _
  | trap => exact (Nat.le_add_right _ _).trans (Nat.le_add_right _ _)

/-- A shorter wait leaves as many ticks fewer. -/
theorem ticksLeft_waitCnt (hm : s.seqMode ≠ .none) (w : Word) (log : List Obs) :
    ticksLeft { s with waitCnt := w, log := log } + s.waitCnt.toNat = ticksLeft s + w.toNat := by
  unfold ticksLeft
  cases hmode : s.seqMode with
  | none => exact absurd hmode hm
  | imm => dsimp only; omega
  | trap => dsimp only; omega

/-- In a state of the invariant no tick is left exactly where no command is in progress. -/
theorem ticksLeft_eq_zero_iff (h : RunInv s) : ticksLeft s = 0 ↔ s.seqMode = .none := by
  refine ⟨fun hzero => ?_, ticksLeft_idle⟩
  by_contra hm
  obtain ⟨-, hbusy, -, -⟩ := h
  obtain ⟨-, hwait, -⟩ := hbusy (busy_eq_true.mpr hm)
  have hle := waitCnt_le_ticksLeft hm
  omega

/-! ### A tick -/

/-- A tick brings a command in progress one tick nearer its end: it counts, or the wait that it begins was already among
the ticks left. -/
theorem ticksLeft_tuTick (h : RunInv s) (hm : s.seqMode ≠ .none) : ticksLeft (tuTick s) + 1 = ticksLeft s := by
  rcases tuTick_cases h hm with ⟨hcount, e⟩ | ⟨hone, hmode, hr, e⟩ | ⟨hone, hmode, hr, e⟩ | ⟨hone, hmode, hh, e⟩ |
    ⟨hone, hmode, hh, hlast, e⟩ | ⟨hone, hmode, hh, hidx, j, d, p, e, hj, hd, -⟩
  · have hless := ticksLeft_waitCnt hm (s.waitCnt - 1#32) (.tuTick :: s.log)
    have hone : (s.waitCnt - 1#32).toNat + 1 = s.waitCnt.toNat := by bv_omega
    rw [e]
    omega
  · rw [e, ticksLeft_idle rfl, ticksLeft_imm hmode, hone, hr]
    simp
  · have hmode' : (tuTick s).seqMode = .imm := e ▸ hmode
    have hrem : s.seqRemaining.toNat = (s.seqRemaining - 1#33).toNat + 1 := by bv_omega
    rw [ticksLeft_imm hmode', ticksLeft_imm hmode, e, hone, hrem, Nat.succ_mul]
    change s.seqDelay.toNat + (s.seqRemaining - 1#33).toNat * s.seqDelay.toNat + 1 = 1 + (_ + s.seqDelay.toNat)
    omega
  · have hmode' : (tuTick s).seqMode = .trap := e ▸ hmode
    have hhigh : (tuTick s).trapHalf = .high := by rw [e]
    rw [ticksLeft_trap_high hmode' hhigh, ticksLeft_trap_low hmode hh, e, hone]
    change s.trapDelay.toNat + (_ - profileStart (s.trapIdx.toNat + 1)) + 1 = 1 + s.trapDelay.toNat + _
    omega
  · rw [e, ticksLeft_idle rfl, ticksLeft_trap_high hmode hh, hone, hlast, Nat.sub_self]
    rfl
  · have hmode' : (tuTick s).seqMode = .trap := e ▸ hmode
    have hlow : (tuTick s).trapHalf = .low := by rw [e]
    have hmono : profileStart (s.trapIdx.toNat + 1 + 1) ≤ profileStart 3200 := profileStart_mono (by omega)
    have hnext := profileStart_succ (s.trapIdx.toNat + 1)
    rw [ticksLeft_trap_low hmode' hlow, ticksLeft_trap_high hmode hh, e, hone]
    change d.toNat + d.toNat + (_ - profileStart (j.toNat + 1)) + 1 = 1 + _
    rw [hj, hd]
    omega

/-! ### The start of a command -/

/-- A STEP starts with the waits of all its toggles to come, and with none if it is over at once. -/
theorem ticksLeft_startStep (count delay : Word) (hm : s.seqMode = .none) :
    ticksLeft (startStep count delay s) = 2 * magOf count * delay.toNat := by
  by_cases hc : count = 0#32
  · have hidle : (startStep 0#32 delay s).seqMode = .none := by
      rw [startStep_zero]
      exact hm
    rw [hc, ticksLeft_idle hidle, show magOf 0#32 = 0 by decide, Nat.mul_zero, Nat.zero_mul]
  by_cases hd : delay = 0#32
  · rw [hd, startStep_delay_zero hc, ticksLeft_idle rfl]
    rfl
  · have hfirst := BeginsWait.startStep hc hd s
    rw [ticksLeft_imm hfirst.seqMode, hfirst.waitCnt, hfirst.seqDelay, ← hfirst.seqRemaining, Nat.succ_mul, Nat.add_comm]

/-- A STEP_TRAPEZOID starts with the whole profile to come. -/
theorem ticksLeft_startProfile (s : State) :
    ticksLeft (runToCompletion (loadProfile (dirSet .clockwise s))) = 10400 := by
  have hfirst : profileStart 1 = 20 := by decide
  rw [startProfile_eq, ticksLeft_trap_low rfl rfl, profileStart_total]
  change 10 + 10 + (10400 - profileStart 1) = 10400
  rw [hfirst]

/-- Settles O47: every tick takes one from the ticks left, and none are left exactly when the command has ended. -/
theorem ticksBringTheEnd : Obligations.TicksBringTheEnd := by
  unfold Obligations.TicksBringTheEnd
  refine ⟨fun s h hm => ?_, fun count delay s t hi hact he hm h => ?_, fun argc arg0 arg1 s t ha hi hact he h => ?_⟩
  · have htick := ticksLeft_tuTick h hm
    refine ⟨htick, ?_, ticksLeft_fire s⟩
    rw [← ticksLeft_eq_zero_iff (tuTick_runInv h)]
    omega
  · rw [exec_step count delay hi he hact] at h
    obtain rfl := Host.Outcome.next.inj h
    exact ticksLeft_startStep count delay hm
  · rw [exec_stepTrapezoid arg0 arg1 ha hi hact he] at h
    obtain rfl := Host.Outcome.next.inj h
    exact ticksLeft_startProfile s

end Sys2Proof.Machine
end
